-- ==== Sys2Proof/Word.lean ====
section
/-! DEFINITION. The words of the hardware (spec/00_scope.md R7, R9, R10): bytes, 16-bit words, register and key numbers. -/

namespace Sys2Proof

/-- A byte: one memory cell, one general register, one timer (R7). -/
abbrev Byte := BitVec 8

/-- A 16-bit word: an instruction word, I, PC, a stack slot (R7). -/
abbrev Word := BitVec 16

/-- A register number, the 4-bit `x` or `y` of an instruction (R22, R72); a key number has the same range (R34). -/
abbrev Reg := Fin 16

/-- VF, register 0xF, the flag register (R23). -/
abbrev Reg.vf : Reg := 15

end Sys2Proof
end

