-- ==== Sys2Proof/Config.lean ====
section
/-! DEFINITION. The configuration parameters of the hardware (spec/00_scope.md R8) and the model's one free value. -/

namespace Sys2Proof

/-- The named parameters of R8. The spec's defaults are `Sys2Proof.Machine.ironchip`. -/
structure Config where
  /-- `FONT_BASE`: the address of byte 0 of glyph 0 (D4). -/
  fontBase : BitVec 12
  /-- `FONT_ROM`: the 80 glyph bytes (D5). -/
  fontRom : Vector Byte 80
  /-- `DECODE_0_STRICT`: family 0 matches the full word 0x00E0 / 0x00EE (D13). -/
  decode0Strict : Bool
  /-- `DECODE_59_STRICT`: 5xyN and 9xyN with N != 0 are unrecognized (D14). -/
  decode59Strict : Bool
  /-- `FLAG_LAST`: with x = 0xF, VF ends holding the flag, not the result (D15). -/
  flagLast : Bool
  /-- `FX29_MASK`: Fx29 uses V[x] AND 0xF instead of V[x] (D18). -/
  fx29Mask : Bool
deriving DecidableEq, Repr

/-- The constraint of R53: the font lies wholly below the program region. -/
abbrev Config.Ok (c : Config) : Prop := c.fontBase.toNat + 80 ≤ 0x200

/-- The random-byte input (R96): the value the host offers at the `k`-th draw since reset. A FREE VALUE: no body, so
nothing can be proved of it, and a statement about a draw holds for every byte (R176, U20; logs 2 and 3). -/
opaque Config.rndByte : Nat → Byte

end Sys2Proof
end

