-- ==== Sys2Proof/Machine/Parameters.lean ====
section
/-! DEFINITION. The values this core takes for the parameters of spec/00_scope.md R8 (the spec's defaults). -/

namespace Sys2Proof.Machine

/-- `FONT_ROM`: the default glyph table of spec/10_state.md R33, glyph 0 first, top row first.
PRESUMED by the spec itself (general knowledge, G1); log 6; unsafe. -/
def fontRom : Vector Byte 80 := #v[
  0xF0, 0x90, 0x90, 0x90, 0xF0,  0x20, 0x60, 0x20, 0x20, 0x70,
  0xF0, 0x10, 0xF0, 0x80, 0xF0,  0xF0, 0x10, 0xF0, 0x10, 0xF0,
  0x90, 0x90, 0xF0, 0x10, 0x10,  0xF0, 0x80, 0xF0, 0x10, 0xF0,
  0xF0, 0x80, 0xF0, 0x90, 0xF0,  0xF0, 0x10, 0x20, 0x40, 0x40,
  0xF0, 0x90, 0xF0, 0x90, 0xF0,  0xF0, 0x90, 0xF0, 0x10, 0xF0,
  0xF0, 0x90, 0xF0, 0x90, 0x90,  0xE0, 0x90, 0xE0, 0x90, 0xE0,
  0xF0, 0x80, 0x80, 0x80, 0xF0,  0xE0, 0x90, 0x90, 0x90, 0xE0,
  0xF0, 0x80, 0xF0, 0x80, 0xF0,  0xF0, 0x80, 0xF0, 0x80, 0x80]

/-- The spec's default for every parameter (R8); logs 5 to 10 say which way each errs. -/
def ironchip : Config where
  fontBase := 0x050
  fontRom := fontRom
  decode0Strict := true
  decode59Strict := true
  flagLast := true
  fx29Mask := false

end Sys2Proof.Machine
end

