-- ==== Sys2Proof/Syntax.lean ====
section
/-! DEFINITION. The instructions: one constructor per row of spec/opcode_table.json, in the table's order. -/

namespace Sys2Proof

/-- A decoded instruction (spec/30_encoding.md R73, R74). Fields are those of R72: `x`, `y` register numbers, `nnn` a
12-bit address, `kk` a byte, `n` a count of sprite rows. -/
inductive Instr where
  /-- 00E0 CLS (R210) -/
  | cls
  /-- 00EE RET (R141) -/
  | ret
  /-- 1nnn JP nnn (R142) -/
  | jp (nnn : BitVec 12)
  /-- 2nnn CALL nnn (R143) -/
  | call (nnn : BitVec 12)
  /-- 3xkk SE Vx, kk (R145) -/
  | seVB (x : Reg) (kk : Byte)
  /-- 4xkk SNE Vx, kk (R146) -/
  | sneVB (x : Reg) (kk : Byte)
  /-- 5xy0 SE Vx, Vy (R147) -/
  | seVV (x y : Reg)
  /-- 6xkk LD Vx, kk (R160) -/
  | ldVB (x : Reg) (kk : Byte)
  /-- 7xkk ADD Vx, kk (R161) -/
  | addVB (x : Reg) (kk : Byte)
  /-- 8xy0 LD Vx, Vy (R162) -/
  | ldVV (x y : Reg)
  /-- 8xy1 OR Vx, Vy (R163) -/
  | orVV (x y : Reg)
  /-- 8xy2 AND Vx, Vy (R164) -/
  | andVV (x y : Reg)
  /-- 8xy3 XOR Vx, Vy (R165) -/
  | xorVV (x y : Reg)
  /-- 8xy4 ADD Vx, Vy (R171) -/
  | addVV (x y : Reg)
  /-- 8xy5 SUB Vx, Vy (R172) -/
  | sub (x y : Reg)
  /-- 8xy6 SHR Vx (R173); `y` is decoded and ignored (R77) -/
  | shr (x y : Reg)
  /-- 8xy7 SUBN Vx, Vy (R174) -/
  | subn (x y : Reg)
  /-- 8xyE SHL Vx (R175); `y` is decoded and ignored (R77) -/
  | shl (x y : Reg)
  /-- 9xy0 SNE Vx, Vy (R148) -/
  | sneVV (x y : Reg)
  /-- Annn LD I, nnn (R190) -/
  | ldI (nnn : BitVec 12)
  /-- Bnnn JP V0, nnn (R149) -/
  | jpV0 (nnn : BitVec 12)
  /-- Cxkk RND Vx, kk (R176) -/
  | rnd (x : Reg) (kk : Byte)
  /-- Dxyn DRW Vx, Vy, n (R212) -/
  | drw (x y : Reg) (n : Nat)
  /-- Ex9E SKP Vx (R230) -/
  | skp (x : Reg)
  /-- ExA1 SKNP Vx (R231) -/
  | sknp (x : Reg)
  /-- Fx07 LD Vx, DT (R232) -/
  | ldVDT (x : Reg)
  /-- Fx0A LD Vx, K (R236) -/
  | ldVK (x : Reg)
  /-- Fx15 LD DT, Vx (R233) -/
  | ldDTV (x : Reg)
  /-- Fx18 LD ST, Vx (R234) -/
  | ldSTV (x : Reg)
  /-- Fx1E ADD I, Vx (R191) -/
  | addIV (x : Reg)
  /-- Fx29 LD F, Vx (R192) -/
  | ldFV (x : Reg)
  /-- Fx33 LD B, Vx (R196) -/
  | ldBV (x : Reg)
  /-- Fx55 LD [I], Vx (R197) -/
  | ldMV (x : Reg)
  /-- Fx65 LD Vx, [I] (R198) -/
  | ldVM (x : Reg)
deriving DecidableEq, Repr

end Sys2Proof
end

