-- ==== Sys2Proof/Decode.lean ====
section
/-! DEFINITION. The decoder of spec/30_encoding.md R70 to R80, total on any bytes, and the encoder from the same formats. -/

namespace Sys2Proof

/-! ### The fields of an instruction word (R71, R72): unsigned bit slices, never scaled or sign-extended -/

/-- `op[15:12]`, the family nibble `h`. -/
def opH (op : Word) : BitVec 4 := op.extractLsb' 12 4

/-- `op[11:8]`, the register number `x`. -/
def opX (op : Word) : Reg := ⟨(op.extractLsb' 8 4).toNat, (op.extractLsb' 8 4).isLt⟩

/-- `op[7:4]`, the register number `y`. -/
def opY (op : Word) : Reg := ⟨(op.extractLsb' 4 4).toNat, (op.extractLsb' 4 4).isLt⟩

/-- `op[3:0]`, the operation nibble `s`; the same bits are the sprite height `n`. -/
def opS (op : Word) : BitVec 4 := op.extractLsb' 0 4

/-- `op[7:0]`, the immediate `kk`; the same bits are the operation byte `ss`. -/
def opKK (op : Word) : Byte := op.extractLsb' 0 8

/-- `op[11:0]`, the address `nnn`: the only masking to 12 bits in the core (R72, C9). -/
def opNNN (op : Word) : BitVec 12 := op.extractLsb' 0 12

/-! ### Decoding (R73) -/

/-- Family 0: CLS and RET. Strict matches the whole word, otherwise the low byte alone (R73, `DECODE_0_STRICT`). -/
def decodeFamily0 (c : Config) (op : Word) : Option Instr :=
  if c.decode0Strict then
    if op = 0x00E0 then some .cls
    else if op = 0x00EE then some .ret
    else none
  else
    if opKK op = 0xE0 then some .cls
    else if opKK op = 0xEE then some .ret
    else none

/-- Families 5 and 9: the nibble `s` must be 0, unless `DECODE_59_STRICT` is false (R73). -/
def decodeFamily59 (c : Config) (op : Word) (mk : Reg → Reg → Instr) : Option Instr :=
  if opS op = 0 ∨ c.decode59Strict = false then some (mk (opX op) (opY op)) else none

/-- Family 8: the nibble `s` selects the operation (R73). -/
def decodeFamily8 (op : Word) : Option Instr :=
  match opS op with
  | 0x0#4 => some (.ldVV (opX op) (opY op))
  | 0x1#4 => some (.orVV (opX op) (opY op))
  | 0x2#4 => some (.andVV (opX op) (opY op))
  | 0x3#4 => some (.xorVV (opX op) (opY op))
  | 0x4#4 => some (.addVV (opX op) (opY op))
  | 0x5#4 => some (.sub (opX op) (opY op))
  | 0x6#4 => some (.shr (opX op) (opY op))
  | 0x7#4 => some (.subn (opX op) (opY op))
  | 0xE#4 => some (.shl (opX op) (opY op))
  | _ => none

/-- Family E: the low byte selects the key skip (R73). -/
def decodeFamilyE (op : Word) : Option Instr :=
  match opKK op with
  | 0x9E#8 => some (.skp (opX op))
  | 0xA1#8 => some (.sknp (opX op))
  | _ => none

/-- Family F: the low byte selects the operation (R73). -/
def decodeFamilyF (op : Word) : Option Instr :=
  match opKK op with
  | 0x07#8 => some (.ldVDT (opX op))
  | 0x0A#8 => some (.ldVK (opX op))
  | 0x15#8 => some (.ldDTV (opX op))
  | 0x18#8 => some (.ldSTV (opX op))
  | 0x1E#8 => some (.addIV (opX op))
  | 0x29#8 => some (.ldFV (opX op))
  | 0x33#8 => some (.ldBV (opX op))
  | 0x55#8 => some (.ldMV (opX op))
  | 0x65#8 => some (.ldVM (opX op))
  | _ => none

/-- `decode(op)` of R73 under the parameters `c`; `none` is the spec's `Unrecognized`. -/
def decodeWord (c : Config) (op : Word) : Option Instr :=
  match opH op with
  | 0x0#4 => decodeFamily0 c op
  | 0x1#4 => some (.jp (opNNN op))
  | 0x2#4 => some (.call (opNNN op))
  | 0x3#4 => some (.seVB (opX op) (opKK op))
  | 0x4#4 => some (.sneVB (opX op) (opKK op))
  | 0x5#4 => decodeFamily59 c op .seVV
  | 0x6#4 => some (.ldVB (opX op) (opKK op))
  | 0x7#4 => some (.addVB (opX op) (opKK op))
  | 0x8#4 => decodeFamily8 op
  | 0x9#4 => decodeFamily59 c op .sneVV
  | 0xA#4 => some (.ldI (opNNN op))
  | 0xB#4 => some (.jpV0 (opNNN op))
  | 0xC#4 => some (.rnd (opX op) (opKK op))
  | 0xD#4 => some (.drw (opX op) (opY op) (opS op).toNat)
  | 0xE#4 => decodeFamilyE op
  | 0xF#4 => decodeFamilyF op
  | _ => none

/-! ### Bytes (R56, R70): two bytes, the one at the lower address is the high byte -/

/-- The instruction word of two consecutive memory bytes (R56). -/
def wordOfBytes (hi lo : Byte) : Word := hi ++ lo

/-- Why bytes are not an instruction. -/
inductive DecodeReject where
  /-- fewer than the two bytes every instruction has (R70) -/
  | truncated
  /-- `Unrecognized`: the word matches no row of R73 -/
  | unrecognized (op : Word)
deriving DecidableEq, Repr

/-- The decoder on bytes: one instruction and the bytes after it, or a rejection by name. -/
def decode (c : Config) : List Byte → Except DecodeReject (Instr × List Byte)
  | hi :: lo :: rest =>
    match decodeWord c (wordOfBytes hi lo) with
    | some i => .ok (i, rest)
    | none => .error (.unrecognized (wordOfBytes hi lo))
  | [_] | [] => .error .truncated

/-! ### The encoder (R71): the same formats, written the other way -/

/-- Format `NNN`. -/
def formatNNN (h : BitVec 4) (nnn : BitVec 12) : Word := h ++ nnn

/-- Format `XKK`; format `XSS` is the same with the operation byte in place of `kk`. -/
def formatXKK (h : BitVec 4) (x : Reg) (kk : Byte) : Word := h ++ (BitVec.ofNat 4 x.val ++ kk)

/-- Formats `XYS` and `XYN`. -/
def formatXYS (h : BitVec 4) (x y : Reg) (s : BitVec 4) : Word :=
  h ++ (BitVec.ofNat 4 x.val ++ (BitVec.ofNat 4 y.val ++ s))

/-- The word of a well-formed instruction (every instruction is one word, R70). -/
def encode : Instr → Word
  | .cls => 0x00E0
  | .ret => 0x00EE
  | .jp nnn => formatNNN 0x1 nnn
  | .call nnn => formatNNN 0x2 nnn
  | .seVB x kk => formatXKK 0x3 x kk
  | .sneVB x kk => formatXKK 0x4 x kk
  | .seVV x y => formatXYS 0x5 x y 0x0
  | .ldVB x kk => formatXKK 0x6 x kk
  | .addVB x kk => formatXKK 0x7 x kk
  | .ldVV x y => formatXYS 0x8 x y 0x0
  | .orVV x y => formatXYS 0x8 x y 0x1
  | .andVV x y => formatXYS 0x8 x y 0x2
  | .xorVV x y => formatXYS 0x8 x y 0x3
  | .addVV x y => formatXYS 0x8 x y 0x4
  | .sub x y => formatXYS 0x8 x y 0x5
  | .shr x y => formatXYS 0x8 x y 0x6
  | .subn x y => formatXYS 0x8 x y 0x7
  | .shl x y => formatXYS 0x8 x y 0xE
  | .sneVV x y => formatXYS 0x9 x y 0x0
  | .ldI nnn => formatNNN 0xA nnn
  | .jpV0 nnn => formatNNN 0xB nnn
  | .rnd x kk => formatXKK 0xC x kk
  | .drw x y n => formatXYS 0xD x y (BitVec.ofNat 4 n)
  | .skp x => formatXKK 0xE x 0x9E
  | .sknp x => formatXKK 0xE x 0xA1
  | .ldVDT x => formatXKK 0xF x 0x07
  | .ldVK x => formatXKK 0xF x 0x0A
  | .ldDTV x => formatXKK 0xF x 0x15
  | .ldSTV x => formatXKK 0xF x 0x18
  | .addIV x => formatXKK 0xF x 0x1E
  | .ldFV x => formatXKK 0xF x 0x29
  | .ldBV x => formatXKK 0xF x 0x33
  | .ldMV x => formatXKK 0xF x 0x55
  | .ldVM x => formatXKK 0xF x 0x65

/-- The two bytes of a word as memory holds them, high byte first (R56). -/
def bytesOfWord (op : Word) : List Byte := [op.extractLsb' 8 8, op.extractLsb' 0 8]

/-- The bytes of an instruction, in address order. -/
def encodeBytes (i : Instr) : List Byte := bytesOfWord (encode i)

/-! ### The opcode table (R74, spec/opcode_table.json), kept apart from the decoder so that the two can be compared -/

/-- One row: a word `op` is of the row iff `op AND mask = pattern`. -/
structure OpcodeRow where
  mnemonic : String
  pattern : Word
  mask : Word
deriving DecidableEq, Repr

def OpcodeRow.matches (r : OpcodeRow) (op : Word) : Bool := op &&& r.mask == r.pattern

/-- Rows of families 0 to 7. -/
def opcodeRows0to7 : List OpcodeRow := [
  ⟨"CLS", 0x00E0, 0xFFFF⟩, ⟨"RET", 0x00EE, 0xFFFF⟩, ⟨"JP_nnn", 0x1000, 0xF000⟩, ⟨"CALL_nnn", 0x2000, 0xF000⟩,
  ⟨"SE_Vx__kk", 0x3000, 0xF000⟩, ⟨"SNE_Vx__kk", 0x4000, 0xF000⟩, ⟨"SE_Vx__Vy", 0x5000, 0xF00F⟩,
  ⟨"LD_Vx__kk", 0x6000, 0xF000⟩, ⟨"ADD_Vx__kk", 0x7000, 0xF000⟩]

/-- Rows of family 8. -/
def opcodeRows8 : List OpcodeRow := [
  ⟨"LD_Vx__Vy", 0x8000, 0xF00F⟩, ⟨"OR_Vx__Vy", 0x8001, 0xF00F⟩, ⟨"AND_Vx__Vy", 0x8002, 0xF00F⟩,
  ⟨"XOR_Vx__Vy", 0x8003, 0xF00F⟩, ⟨"ADD_Vx__Vy", 0x8004, 0xF00F⟩, ⟨"SUB_Vx__Vy", 0x8005, 0xF00F⟩,
  ⟨"SHR_Vx____Vy", 0x8006, 0xF00F⟩, ⟨"SUBN_Vx__Vy", 0x8007, 0xF00F⟩, ⟨"SHL_Vx____Vy", 0x800E, 0xF00F⟩]

/-- Rows of families 9 to D. -/
def opcodeRows9toD : List OpcodeRow := [
  ⟨"SNE_Vx__Vy", 0x9000, 0xF00F⟩, ⟨"LD_I__nnn", 0xA000, 0xF000⟩, ⟨"JP_V0__nnn", 0xB000, 0xF000⟩,
  ⟨"RND_Vx__kk", 0xC000, 0xF000⟩, ⟨"DRW_Vx__Vy__n", 0xD000, 0xF000⟩]

/-- Rows of families E and F. -/
def opcodeRowsEF : List OpcodeRow := [
  ⟨"SKP_Vx", 0xE09E, 0xF0FF⟩, ⟨"SKNP_Vx", 0xE0A1, 0xF0FF⟩, ⟨"LD_Vx__DT", 0xF007, 0xF0FF⟩,
  ⟨"LD_Vx__K", 0xF00A, 0xF0FF⟩, ⟨"LD_DT__Vx", 0xF015, 0xF0FF⟩, ⟨"LD_ST__Vx", 0xF018, 0xF0FF⟩,
  ⟨"ADD_I__Vx", 0xF01E, 0xF0FF⟩, ⟨"LD_F__Vx", 0xF029, 0xF0FF⟩, ⟨"LD_B__Vx", 0xF033, 0xF0FF⟩,
  ⟨"LD__I___Vx", 0xF055, 0xF0FF⟩, ⟨"LD_Vx___I", 0xF065, 0xF0FF⟩]

/-- The 34 rows. -/
def opcodeTable : List OpcodeRow := opcodeRows0to7 ++ opcodeRows8 ++ opcodeRows9toD ++ opcodeRowsEF

/-- The table's name of an instruction. -/
def Instr.mnemonic : Instr → String
  | .cls => "CLS"
  | .ret => "RET"
  | .jp _ => "JP_nnn"
  | .call _ => "CALL_nnn"
  | .seVB _ _ => "SE_Vx__kk"
  | .sneVB _ _ => "SNE_Vx__kk"
  | .seVV _ _ => "SE_Vx__Vy"
  | .ldVB _ _ => "LD_Vx__kk"
  | .addVB _ _ => "ADD_Vx__kk"
  | .ldVV _ _ => "LD_Vx__Vy"
  | .orVV _ _ => "OR_Vx__Vy"
  | .andVV _ _ => "AND_Vx__Vy"
  | .xorVV _ _ => "XOR_Vx__Vy"
  | .addVV _ _ => "ADD_Vx__Vy"
  | .sub _ _ => "SUB_Vx__Vy"
  | .shr _ _ => "SHR_Vx____Vy"
  | .subn _ _ => "SUBN_Vx__Vy"
  | .shl _ _ => "SHL_Vx____Vy"
  | .sneVV _ _ => "SNE_Vx__Vy"
  | .ldI _ => "LD_I__nnn"
  | .jpV0 _ => "JP_V0__nnn"
  | .rnd _ _ => "RND_Vx__kk"
  | .drw _ _ _ => "DRW_Vx__Vy__n"
  | .skp _ => "SKP_Vx"
  | .sknp _ => "SKNP_Vx"
  | .ldVDT _ => "LD_Vx__DT"
  | .ldVK _ => "LD_Vx__K"
  | .ldDTV _ => "LD_DT__Vx"
  | .ldSTV _ => "LD_ST__Vx"
  | .addIV _ => "ADD_I__Vx"
  | .ldFV _ => "LD_F__Vx"
  | .ldBV _ => "LD_B__Vx"
  | .ldMV _ => "LD__I___Vx"
  | .ldVM _ => "LD_Vx___I"

/-! ### The host's probe -/

/-- The instruction the decoder reads from the table word `w` of `nbits` bits: bit 0 is the least significant bit of the
one 16-bit word, the bits above `nbits` are 0, and the word's bytes are laid out high byte first. -/
def decodeTableWord (nbits w : Nat) : Option Instr :=
  match decode Machine.ironchip (bytesOfWord (BitVec.ofNat 16 (w % 2 ^ nbits))) with
  | .ok (i, _) => some i
  | .error _ => none

end Sys2Proof
end

