-- ==== Sys2Proof/Machine/State.lean ====
section
/-! DEFINITION. The state of the core (spec/10_state.md R20), its errors (spec/60_exceptions.md R250) and reset (R39). -/

namespace Sys2Proof.Machine

/-- The 4096-byte memory (R50) as the sparse list of the bytes that differ from the reset contents, in strictly rising
address order. Its operations are in Machine/Ops.lean. -/
abbrev Memory := List Host.Cell

/-- The framebuffer (R35): 32 rows of 64 pixels, row 0 and column 0 first, true = lit. -/
abbrev Screen := Vector (Vector Bool 64) 32

/-- The errors a command can return (R250), with the spec's payloads. The core latches none of them (R260), and a
command that returns one leaves the state as it was (R256), but for a frame's tick and earlier steps (R121). -/
inductive Fault where
  /-- Raised by FETCH when PC > 0xFFE (R251), and by the debug set of PC above 0xFFF (R133). Safe: D6, log 11. -/
  | pcOutOfBounds (pc : Word)
  /-- Raised by DECODE on every word of R75 (R252). Safe: D13, D14, logs 7 and 8. -/
  | unrecognizedOpcode (op : Word)
  /-- Raised by 2nnn at SP = 15 (payload 16), by 00EE at SP = 0 (payload 0) (R253), and by the debug set of SP (R133).
  Safe as a stop; the payload 16 is the spec's label (D10, D11, logs 15 and 16). -/
  | spOutOfBounds (sp : Nat)
  /-- Raised by Dxyn, Fx33, Fx55 and Fx65 whose last address exceeds 0xFFF; `a` is the lowest such address (R254).
  Safe: D8, log 13. -/
  | execAddrOutOfBounds (a : Nat)
  /-- Raised by Ex9E and ExA1 with V[x] > 15 (R255), and by debug keypad accesses (R133). Safe: D9, log 14. -/
  | keyOutOfBounds (k : Nat)
  /-- Returned by LOAD_ROM of more than 0xE00 bytes (R128). Safe. -/
  | romTooBig (len : Nat)
  /-- Returned by a debug memory access above 0xFFF (R133). Safe. -/
  | addrOutOfBounds (a : Nat)
  /-- Returned by a debug register access above 15 (R133). Safe. -/
  | noRegister (r : Nat)
  /-- Returned by a debug pixel access outside 64 x 32 (R133). Safe. -/
  | noPixel (x y : Nat)
  /-- Returned by the debug set of I above 0xFFF (R133). Safe. -/
  | indexTooBig (v : Nat)
  /-- Returned by a debug stack access with a bad slot or value (R133). Safe. -/
  | stackAddrOutOfBounds (v : Nat)
deriving DecidableEq, Repr

/-- Why the model gives a command no transition. -/
inductive Refusal where
  /-- Raised by an arm of `exec` that has no meaning yet; no arm of this model raises it. Safe. -/
  | notModelled (mnemonic : String)
  /-- Raised by KEY_DOWN(k) and KEY_UP(k) with k > 15, outside the host's contract (R258, D21, log 21). Safe. -/
  | keyOutsideContract (k : Nat)
deriving DecidableEq, Repr

/-- The state aggregate of R20, field for field, and one field of the model's own (`rndTaken`). -/
structure State where
  /-- `V`: the general registers V0-VF (R22) -/
  V : Vector Byte 16
  /-- `I`: the index register, 16 bits stored (R29) -/
  I : Word
  /-- `PC`: between steps, the address of the next instruction to fetch (R25) -/
  PC : Word
  /-- `SP`: the stack pointer, an integer in [0,15] (R30) -/
  SP : Fin 16
  /-- `S`: the stack slots S[0]..S[15] (R30) -/
  S : Vector Word 16
  /-- `DT`: the delay timer (R31) -/
  DT : Byte
  /-- `ST`: the sound timer (R31) -/
  ST : Byte
  /-- `K`: the keypad latch, true = pressed (R34) -/
  K : Vector Bool 16
  /-- `FB`: the framebuffer (R35) -/
  FB : Screen
  /-- `M`: the memory (R50) -/
  M : Memory
  /-- The model's own: how many values Cxkk has taken from the random-byte input since reset (R96, log 3). -/
  rndTaken : Nat
deriving DecidableEq, Repr

/-- The state after construction and after RESET (R39): memory as preloaded (nothing listed), PC at 0x200, all else 0 or
false. The zeros are the spec's decision D3 (log 1); `rndTaken` is the model's own (log 3). -/
def State.reset : State where
  V := Vector.replicate 16 0
  I := 0
  PC := 0x200
  SP := 0
  S := Vector.replicate 16 0
  DT := 0
  ST := 0
  K := Vector.replicate 16 false
  FB := Vector.replicate 32 (Vector.replicate 64 false)
  M := []
  rndTaken := 0

/-- What exec and step answer. -/
abbrev StepOutcome := Host.Outcome State Fault Refusal

/-- What the EXECUTE phase of one instruction answers: the state it leaves, or the error it raises (R103). -/
abbrev Effect := Except Fault State

end Sys2Proof.Machine
end

