-- ==== Sys2Proof/Machine/Ops.lean ====
section
/-! DEFINITION. The named operations over memory, registers, stack, keypad and framebuffer, raising an error, and the
ADVANCE that ends every successful instruction. -/

namespace Sys2Proof.Machine

/-! ### Memory (spec/20_memory.md) -/

/-- The reset contents under the parameters `c` (R39, R53): the font at `FONT_BASE`, 0x00 elsewhere. -/
def resetByte (c : Config) (a : Nat) : Byte :=
  if h : c.fontBase.toNat ≤ a ∧ a < c.fontBase.toNat + 80 then
    c.fontRom[a - c.fontBase.toNat]'(by omega)
  else 0

/-- What an address that memory does not list reads as: the reset contents of this core (R39; log 4). -/
def Memory.unlisted (a : Nat) : Byte := resetByte ironchip a

/-- `MemRead(a, 1)` (R13). Callers check the range first (R55, R101): no address above 0xFFF is ever read by a command. -/
def Memory.read : Memory → Nat → Byte
  | [], a => Memory.unlisted a
  | (k, b) :: m, a => if k = a then b else Memory.read m a

/-- `m` without any entry for `a`. -/
def Memory.unlist (m : Memory) (a : Nat) : Memory := m.filter (fun e => e.1 != a)

/-- `m` with the entry `(a, b)` at its place in address order. -/
def Memory.enter (a : Nat) (b : Byte) : Memory → Memory
  | [] => [(a, b)]
  | (k, v) :: m => if a < k then (a, b) :: (k, v) :: m else (k, v) :: Memory.enter a b m

/-- `MemWrite(a, 1, b)` (R13): only an address of the 4096 (R50) is accessed, and the canonical form is kept. No byte is
write-protected (R54). -/
def Memory.write (m : Memory) (a : Nat) (b : Byte) : Memory :=
  if a > 0xFFF then m
  else if b = Memory.unlisted a then m.unlist a
  else Memory.enter a b (m.unlist a)

/-- The bytes `bs` written from `base` up, in ascending address order (R13). -/
def Memory.writeAll (m : Memory) (base : Nat) : List Byte → Memory
  | [] => m
  | b :: bs => Memory.writeAll (m.write base b) (base + 1) bs

/-- The canonical form: addresses strictly rising and within the 4096, and no entry equal to what an unlisted address
reads as. Equal memories are then equal lists. -/
abbrev Memory.wf (m : Memory) : Prop :=
  m.Pairwise (fun e f => e.1 < f.1) ∧ ∀ e ∈ m, e.1 ≤ 0xFFF ∧ e.2 ≠ Memory.unlisted e.1

/-! ### Framebuffer (R35) -/

/-- `FB[y][x]`. -/
def Screen.pixel (fb : Screen) (y : Fin 32) (x : Fin 64) : Bool := fb[y][x]

/-- `FB[y][x] <- b`. -/
def Screen.setPixel (fb : Screen) (y : Fin 32) (x : Fin 64) (b : Bool) : Screen :=
  fb.set y.val (fb[y].set x.val b x.isLt) y.isLt

/-- The all-dark framebuffer. -/
def Screen.clear : Screen := Vector.replicate 32 (Vector.replicate 64 false)

/-! ### Registers, stack, keypad, timers (spec/10_state.md) -/

namespace State

/-- `V[r]` (R22): no register is hardwired. -/
def reg (s : State) (r : Reg) : Byte := s.V[r]

/-- `V[r] <- v` (R22). -/
def setReg (s : State) (r : Reg) (v : Byte) : State := { s with V := s.V.set r.val v r.isLt }

/-- `I <- v` (R29). -/
def setI (s : State) (v : Word) : State := { s with I := v }

/-- `PC <- v` (R25). -/
def setPC (s : State) (v : Word) : State := { s with PC := v }

/-- `SP <- v` (R30). -/
def setSP (s : State) (v : Fin 16) : State := { s with SP := v }

/-- `S[j]` (R30). -/
def slot (s : State) (j : Fin 16) : Word := s.S[j]

/-- `S[j] <- v` (R30). -/
def setSlot (s : State) (j : Fin 16) (v : Word) : State := { s with S := s.S.set j.val v j.isLt }

/-- `DT <- v` (R31). -/
def setDT (s : State) (v : Byte) : State := { s with DT := v }

/-- `ST <- v` (R31). -/
def setST (s : State) (v : Byte) : State := { s with ST := v }

/-- `K[k]` (R34). -/
def key (s : State) (k : Reg) : Bool := s.K[k]

/-- `K[k] <- b` (R34). -/
def setKey (s : State) (k : Reg) (b : Bool) : State := { s with K := s.K.set k.val b k.isLt }

/-- The framebuffer replaced as a whole. -/
def setFB (s : State) (fb : Screen) : State := { s with FB := fb }

/-- The memory replaced as a whole. -/
def setM (s : State) (m : Memory) : State := { s with M := m }

/-- One value of the random-byte input has been taken (R96). -/
def countDraw (s : State) : State := { s with rndTaken := s.rndTaken + 1 }

/-! ### Outputs (R92) -/

/-- `buzzer = (ST != 0)` (R32). -/
def buzzer (s : State) : Bool := s.ST != 0

/-- The host's flat view `fb`: element `i` is row `i / 64`, column `i % 64` (R35, R92; log 31). -/
def fbView (s : State) (i : Fin 2048) : Bool :=
  s.FB.pixel ⟨i.val / 64, by omega⟩ ⟨i.val % 64, by omega⟩

/-! ### Program counter (R104) -/

/-- `pc <- target`: EXECUTE writes `(target - 2) mod 2^16`, so that ADVANCE lands on the target (R104, D26, log 23). -/
def transferTo (s : State) (target : Word) : State := s.setPC (target - 2)

/-- ADVANCE: `PC <- (PC + 2) mod 2^16` (R104). -/
def advance (s : State) : State := s.setPC (s.PC + 2)

end State

/-! ### Raising an error -/

/-- `raise E(info)` (R14, R256, R259): the one way an instruction stops. There is no trap entry: nothing is saved, no
mode changes, control goes nowhere, and the state stays as it was before the step. There is no return from it (R261). -/
def raise (e : Fault) : Effect := .error e

/-- EXECUTE done, then ADVANCE; an error ends the step before ADVANCE (R103, R104). -/
def retire : Effect → StepOutcome
  | .ok s => .next s.advance
  | .error e => .fault e

end Sys2Proof.Machine
end

