-- ==== Sys2Proof/Machine/Flags.lean ====
section
/-! DEFINITION. The arithmetic of spec/42_alu.md R166, the flags of R36 and the write order of R170. -/

namespace Sys2Proof.Machine

/-- A flag value is always 0 or 1 (R166). -/
def flagByte (b : Bool) : Byte := if b then 1 else 0

/-- Carry: 1 iff the unsigned sum exceeds 255 (R166). -/
def carryFlag (a b : Byte) : Byte := flagByte (decide (a.toNat + b.toNat > 255))

/-- NOT borrow of `a - b`: 1 iff a >= b (R166). -/
def notBorrowFlag (a b : Byte) : Byte := flagByte (decide (a.toNat ≥ b.toNat))

/-- The evicted low bit, `a[0]` (R166). -/
def lowBitFlag (a : Byte) : Byte := flagByte (a.getLsbD 0)

/-- The evicted high bit, `a[7]` (R166). -/
def highBitFlag (a : Byte) : Byte := flagByte (a.getLsbD 7)

/-- `(a + b) mod 256` (R166). -/
def addBytes (a b : Byte) : Byte := a + b

/-- `(a - b) mod 256` (R166). -/
def subBytes (a b : Byte) : Byte := a - b

/-- `a >> 1`: bit 7 becomes 0 (R166). -/
def shiftRight (a : Byte) : Byte := a >>> 1

/-- `(a << 1) mod 256`: bit 0 becomes 0 (R166). -/
def shiftLeft (a : Byte) : Byte := a <<< 1

/-- The two writes of a flag instruction (R170). With `FLAG_LAST`, V[x] takes `res` and then VF takes `flag`. Without it,
VF takes `flag` first and V[x] then takes `late`, computed from V[x] as it is after the flag write. -/
def writeResultAndFlag (c : Config) (x : Reg) (res flag : Byte) (late : Byte → Byte) (s : State) : State :=
  if c.flagLast then (s.setReg x res).setReg Reg.vf flag
  else
    let s₁ := s.setReg Reg.vf flag
    s₁.setReg x (late (s₁.reg x))

end Sys2Proof.Machine
end

