-- ==== Sys2Proof/Machine/Alu.lean ====
section
/-! DEFINITION. Register loads, arithmetic, logic, shifts and random (spec/42_alu.md): 6xkk, 7xkk, 8xy0 to 8xyE, Cxkk.
The flag instructions take the parameters `c` (R170); their `exec…` runs them as this core has them. -/

namespace Sys2Proof.Machine

/-- 6xkk LD Vx, kk (R160). -/
def ldVBEffect (x : Reg) (kk : Byte) (s : State) : Effect := .ok (s.setReg x kk)

def execLdVB (x : Reg) (kk : Byte) (s : State) : StepOutcome := retire (ldVBEffect x kk s)

/-- 7xkk ADD Vx, kk (R161): wraps, and VF is not written as a flag. -/
def addVBEffect (x : Reg) (kk : Byte) (s : State) : Effect := .ok (s.setReg x (addBytes (s.reg x) kk))

def execAddVB (x : Reg) (kk : Byte) (s : State) : StepOutcome := retire (addVBEffect x kk s)

/-- 8xy0 LD Vx, Vy (R162). -/
def ldVVEffect (x y : Reg) (s : State) : Effect := .ok (s.setReg x (s.reg y))

def execLdVV (x y : Reg) (s : State) : StepOutcome := retire (ldVVEffect x y s)

/-- 8xy1 OR Vx, Vy (R163): VF is not written. -/
def orVVEffect (x y : Reg) (s : State) : Effect := .ok (s.setReg x (s.reg x ||| s.reg y))

def execOrVV (x y : Reg) (s : State) : StepOutcome := retire (orVVEffect x y s)

/-- 8xy2 AND Vx, Vy (R164): VF is not written. -/
def andVVEffect (x y : Reg) (s : State) : Effect := .ok (s.setReg x (s.reg x &&& s.reg y))

def execAndVV (x y : Reg) (s : State) : StepOutcome := retire (andVVEffect x y s)

/-- 8xy3 XOR Vx, Vy (R165): VF is not written. -/
def xorVVEffect (x y : Reg) (s : State) : Effect := .ok (s.setReg x (s.reg x ^^^ s.reg y))

def execXorVV (x y : Reg) (s : State) : StepOutcome := retire (xorVVEffect x y s)

/-- 8xy4 ADD Vx, Vy (R171): VF = carry. -/
def addVVEffect (c : Config) (x y : Reg) (s : State) : Effect :=
  let vx := s.reg x
  let vy := s.reg y
  .ok (writeResultAndFlag c x (addBytes vx vy) (carryFlag vx vy) (fun _ => addBytes vx vy) s)

def execAddVV (x y : Reg) (s : State) : StepOutcome := retire (addVVEffect ironchip x y s)

/-- 8xy5 SUB Vx, Vy (R172): V[x] - V[y], VF = NOT borrow. -/
def subEffect (c : Config) (x y : Reg) (s : State) : Effect :=
  let vx := s.reg x
  let vy := s.reg y
  .ok (writeResultAndFlag c x (subBytes vx vy) (notBorrowFlag vx vy) (fun _ => subBytes vx vy) s)

def execSub (x y : Reg) (s : State) : StepOutcome := retire (subEffect ironchip x y s)

/-- 8xy6 SHR Vx (R173): VF = the evicted bit 0. `y` is decoded and not read (R77). -/
def shrEffect (c : Config) (x _y : Reg) (s : State) : Effect :=
  let vx := s.reg x
  .ok (writeResultAndFlag c x (shiftRight vx) (lowBitFlag vx) shiftRight s)

def execShr (x y : Reg) (s : State) : StepOutcome := retire (shrEffect ironchip x y s)

/-- 8xy7 SUBN Vx, Vy (R174): V[y] - V[x], VF = NOT borrow. -/
def subnEffect (c : Config) (x y : Reg) (s : State) : Effect :=
  let vx := s.reg x
  let vy := s.reg y
  .ok (writeResultAndFlag c x (subBytes vy vx) (notBorrowFlag vy vx) (fun _ => subBytes vy vx) s)

def execSubn (x y : Reg) (s : State) : StepOutcome := retire (subnEffect ironchip x y s)

/-- 8xyE SHL Vx (R175): VF = the evicted bit 7. `y` is decoded and not read (R77). -/
def shlEffect (c : Config) (x _y : Reg) (s : State) : Effect :=
  let vx := s.reg x
  .ok (writeResultAndFlag c x (shiftLeft vx) (highBitFlag vx) shiftLeft s)

def execShl (x y : Reg) (s : State) : StepOutcome := retire (shlEffect ironchip x y s)

/-- Cxkk RND Vx, kk (R176) when the random-byte input offers `r`: one value is taken, also when kk = 0. -/
def rndEffectWith (r : Byte) (x : Reg) (kk : Byte) (s : State) : Effect := .ok ((s.setReg x (r &&& kk)).countDraw)

/-- Cxkk RND Vx, kk (R176): the byte is the free value of this draw (R96; logs 2 and 3). -/
def rndEffect (x : Reg) (kk : Byte) (s : State) : Effect := rndEffectWith (Config.rndByte s.rndTaken) x kk s

def execRnd (x : Reg) (kk : Byte) (s : State) : StepOutcome := retire (rndEffect x kk s)

end Sys2Proof.Machine
end

