-- ==== Sys2Proof/Machine/Operands.lean ====
section
/-! DEFINITION. Every operand form: register lists, index-relative data (R193), key numbers (R230), jump targets (R140),
the glyph address (R192), the sprite origin (R211) and the skip (R144). -/

namespace Sys2Proof.Machine

/-- The registers V0..Vx in ascending order, inclusive of x (R197, R198). -/
def regsUpTo (x : Reg) : List Reg := (List.finRange 16).filter (· ≤ x)

/-- The effective address of the `k`-th byte an instruction moves: `I + k`, an exact sum, never reduced (R193). -/
def dataAddr (s : State) (k : Nat) : Nat := s.I.toNat + k

/-- Do the `n` bytes at I reach past 0xFFF (R193)? With `n = 0` there is no byte (R212). -/
def dataPastEnd (s : State) (n : Nat) : Bool := decide (n > 0 ∧ dataAddr s (n - 1) > 0xFFF)

/-- The check every data access makes before its first write: `ExecAddrOutOfBounds` with the lowest address above 0xFFF
(R55, R193, R254; D8, log 13), else the instruction's own effect. -/
def withData (s : State) (n : Nat) (body : Effect) : Effect :=
  if dataPastEnd s n then raise (.execAddrOutOfBounds (max s.I.toNat 0x1000)) else body

/-- A register's value as a key number: `KeyOutOfBounds` above 15 (R230, R255; D9, log 14), else the use of the key. -/
def withKey (v : Byte) (body : Reg → Effect) : Effect :=
  if h : v.toNat < 16 then body ⟨v.toNat, h⟩ else raise (.keyOutOfBounds v.toNat)

/-- `zext_16(nnn)` (R72). -/
def addrOf (nnn : BitVec 12) : Word := nnn.setWidth 16

/-- `nnn + V[0]`, a 16-bit sum, not masked (R149; D27, log 24). -/
def indexedTarget (s : State) (nnn : BitVec 12) : Word := addrOf nnn + (s.reg 0).setWidth 16

/-- `FONT_BASE + 5 * d`, with `d` the value or, under `FX29_MASK`, its low nibble (R192; log 10). -/
def glyphAddr (c : Config) (v : Byte) : Word :=
  BitVec.ofNat 16 (c.fontBase.toNat + 5 * (if c.fx29Mask then v.toNat % 16 else v.toNat))

/-- The sprite's origin column, `V[x] mod 64` (R211). -/
def originX (v : Byte) : Nat := v.toNat % 64

/-- The sprite's origin row, `V[y] mod 32` (R211). -/
def originY (v : Byte) : Nat := v.toNat % 32

/-- The lowest-numbered pressed key, if any key is pressed (R236). -/
def lowestKey (s : State) : Option Reg := (List.finRange 16).find? (fun k => s.key k)

/-- The skip mechanism (R144): `pc <- P + 4` if the condition holds, else nothing (ADVANCE gives P + 2). -/
def skipIf (cond : Bool) (s : State) : State := if cond then s.transferTo (s.PC + 4) else s

end Sys2Proof.Machine
end

