-- ==== Sys2Proof/Machine/Display.lean ====
section
/-! DEFINITION. Display (spec/44_display.md): 00E0 and the XOR sprite draw Dxyn with its collision detector. -/

namespace Sys2Proof.Machine

/-- 00E0 CLS (R210). -/
def clsEffect (s : State) : Effect := .ok (s.setFB Screen.clear)

def execCls (s : State) : StepOutcome := retire (clsEffect s)

/-- What a draw has done so far: the framebuffer, and whether a lit pixel was erased. -/
structure DrawState where
  fb : Screen
  collision : Bool
deriving DecidableEq, Repr

/-- Bit `c` of a sprite row counted from the left: bit 7 is the leftmost (R211; D19, G2, log 20). -/
def spriteBit (row : Byte) (c : Nat) : Bool := row.getLsbD (7 - c)

/-- One sprite pixel at column offset `c` and row offset `r`: clipped off the screen, else XORed in (R211, R212). -/
def drawPixel (x0 y0 r : Nat) (row : Byte) (d : DrawState) (c : Nat) : DrawState :=
  if h : y0 + r < 32 ∧ x0 + c < 64 then
    if spriteBit row c then
      let old := d.fb.pixel ⟨y0 + r, h.1⟩ ⟨x0 + c, h.2⟩
      { fb := d.fb.setPixel ⟨y0 + r, h.1⟩ ⟨x0 + c, h.2⟩ (!old), collision := d.collision || old }
    else d
  else d

/-- One sprite row, left to right (R212). -/
def drawRow (x0 y0 : Nat) (rows : Nat → Byte) (d : DrawState) (r : Nat) : DrawState :=
  (List.range 8).foldl (drawPixel x0 y0 r (rows r)) d

/-- The `n` rows, top row first (R212). -/
def drawSprite (x0 y0 n : Nat) (rows : Nat → Byte) (fb : Screen) : DrawState :=
  (List.range n).foldl (drawRow x0 y0 rows) { fb := fb, collision := false }

/-- Dxyn DRW Vx, Vy, n (R212): the origin is sampled before VF is written, every one of the `n` addresses is checked,
clipped rows included (D19, log 20), and VF ends as the collision flag. -/
def drwEffect (x y : Reg) (n : Nat) (s : State) : Effect :=
  let d := drawSprite (originX (s.reg x)) (originY (s.reg y)) n (fun r => s.M.read (dataAddr s r)) s.FB
  withData s n (.ok ((s.setFB d.fb).setReg Reg.vf (flagByte d.collision)))

def execDrw (x y : Reg) (n : Nat) (s : State) : StepOutcome := retire (drwEffect x y n s)

end Sys2Proof.Machine
end

