-- ==== Sys2Proof/Machine/Flow.lean ====
section
/-! DEFINITION. Control flow (spec/41_flow.md): 00EE, 1nnn, 2nnn, 3xkk, 4xkk, 5xy0, 9xy0, Bnnn. Each `…Effect` is the
EXECUTE phase, in which PC still holds P; each `exec…` is EXECUTE and ADVANCE. -/

namespace Sys2Proof.Machine

/-- 00EE RET (R141): PC takes S[SP], the address of the call, and ADVANCE moves past it; SP goes down. At SP = 0 it
raises `SpOutOfBounds(0)` (D10, log 15). The slot is not cleared. -/
def retEffect (s : State) : Effect :=
  if s.SP.val = 0 then raise (.spOutOfBounds 0)
  else .ok ((s.setPC (s.slot s.SP)).setSP ⟨s.SP.val - 1, by omega⟩)

def execRet (s : State) : StepOutcome := retire (retEffect s)

/-- 1nnn JP nnn (R142). -/
def jpEffect (nnn : BitVec 12) (s : State) : Effect := .ok (s.transferTo (addrOf nnn))

def execJp (nnn : BitVec 12) (s : State) : StepOutcome := retire (jpEffect nnn s)

/-- 2nnn CALL nnn (R143): SP goes up, S[SP] takes P, then the jump. At SP = 15 it raises `SpOutOfBounds(16)` (D11,
log 16) before any change. -/
def callEffect (nnn : BitVec 12) (s : State) : Effect :=
  if h : s.SP.val + 1 < 16 then
    .ok (((s.setSP ⟨s.SP.val + 1, h⟩).setSlot ⟨s.SP.val + 1, h⟩ s.PC).transferTo (addrOf nnn))
  else raise (.spOutOfBounds (s.SP.val + 1))

def execCall (nnn : BitVec 12) (s : State) : StepOutcome := retire (callEffect nnn s)

/-- 3xkk SE Vx, kk (R145). -/
def seVBEffect (x : Reg) (kk : Byte) (s : State) : Effect := .ok (skipIf (s.reg x == kk) s)

def execSeVB (x : Reg) (kk : Byte) (s : State) : StepOutcome := retire (seVBEffect x kk s)

/-- 4xkk SNE Vx, kk (R146). -/
def sneVBEffect (x : Reg) (kk : Byte) (s : State) : Effect := .ok (skipIf (s.reg x != kk) s)

def execSneVB (x : Reg) (kk : Byte) (s : State) : StepOutcome := retire (sneVBEffect x kk s)

/-- 5xy0 SE Vx, Vy (R147). -/
def seVVEffect (x y : Reg) (s : State) : Effect := .ok (skipIf (s.reg x == s.reg y) s)

def execSeVV (x y : Reg) (s : State) : StepOutcome := retire (seVVEffect x y s)

/-- 9xy0 SNE Vx, Vy (R148). -/
def sneVVEffect (x y : Reg) (s : State) : Effect := .ok (skipIf (s.reg x != s.reg y) s)

def execSneVV (x y : Reg) (s : State) : StepOutcome := retire (sneVVEffect x y s)

/-- Bnnn JP V0, nnn (R149). -/
def jpV0Effect (nnn : BitVec 12) (s : State) : Effect := .ok (s.transferTo (indexedTarget s nnn))

def execJpV0 (nnn : BitVec 12) (s : State) : StepOutcome := retire (jpV0Effect nnn s)

end Sys2Proof.Machine
end

