-- ==== Sys2Proof/Machine/Index.lean ====
section
/-! DEFINITION. Index register and memory transfers (spec/43_index_memory.md): Annn, Fx1E, Fx29, Fx33, Fx55, Fx65.
None changes I as a side effect of an access (R193; D16, log 18). -/

namespace Sys2Proof.Machine

/-- Annn LD I, nnn (R190). -/
def ldIEffect (nnn : BitVec 12) (s : State) : Effect := .ok (s.setI (addrOf nnn))

def execLdI (nnn : BitVec 12) (s : State) : StepOutcome := retire (ldIEffect nnn s)

/-- Fx1E ADD I, Vx (R191): modulo 2^16, no bounds check, VF not written (D17, log 19). -/
def addIVEffect (x : Reg) (s : State) : Effect := .ok (s.setI (s.I + (s.reg x).setWidth 16))

def execAddIV (x : Reg) (s : State) : StepOutcome := retire (addIVEffect x s)

/-- Fx29 LD F, Vx (R192). -/
def ldFVEffect (c : Config) (x : Reg) (s : State) : Effect := .ok (s.setI (glyphAddr c (s.reg x)))

def execLdFV (x : Reg) (s : State) : StepOutcome := retire (ldFVEffect ironchip x s)

/-- The decimal digits of a byte: hundreds, tens, units (R196). -/
def bcdDigits (v : Byte) : List Byte :=
  [BitVec.ofNat 8 (v.toNat / 100), BitVec.ofNat 8 (v.toNat / 10 % 10), BitVec.ofNat 8 (v.toNat % 10)]

/-- Fx33 LD B, Vx (R196): the three digits to M[I], M[I+1], M[I+2]. -/
def ldBVEffect (x : Reg) (s : State) : Effect :=
  withData s 3 (.ok (s.setM (s.M.writeAll (dataAddr s 0) (bcdDigits (s.reg x)))))

def execLdBV (x : Reg) (s : State) : StepOutcome := retire (ldBVEffect x s)

/-- Fx55 LD [I], Vx (R197): V0..Vx to M[I..I+x], ascending. -/
def ldMVEffect (x : Reg) (s : State) : Effect :=
  withData s (x.val + 1) (.ok (s.setM (s.M.writeAll (dataAddr s 0) ((regsUpTo x).map s.reg))))

def execLdMV (x : Reg) (s : State) : StepOutcome := retire (ldMVEffect x s)

/-- Fx65 LD Vx, [I] (R198): M[I..I+x] to V0..Vx, ascending. -/
def ldVMEffect (x : Reg) (s : State) : Effect :=
  withData s (x.val + 1) (.ok ((regsUpTo x).foldl (fun t i => t.setReg i (t.M.read (dataAddr t i.val))) s))

def execLdVM (x : Reg) (s : State) : StepOutcome := retire (ldVMEffect x s)

end Sys2Proof.Machine
end

