-- ==== Sys2Proof/Machine/Keypad.lean ====
section
/-! DEFINITION. Keypad and timer instructions (spec/45_keypad_timers.md): Ex9E, ExA1, Fx07, Fx15, Fx18, Fx0A. -/

namespace Sys2Proof.Machine

/-- Ex9E SKP Vx (R230). -/
def skpEffect (x : Reg) (s : State) : Effect := withKey (s.reg x) (fun k => .ok (skipIf (s.key k) s))

def execSkp (x : Reg) (s : State) : StepOutcome := retire (skpEffect x s)

/-- ExA1 SKNP Vx (R231). -/
def sknpEffect (x : Reg) (s : State) : Effect := withKey (s.reg x) (fun k => .ok (skipIf (!s.key k) s))

def execSknp (x : Reg) (s : State) : StepOutcome := retire (sknpEffect x s)

/-- Fx07 LD Vx, DT (R232). -/
def ldVDTEffect (x : Reg) (s : State) : Effect := .ok (s.setReg x s.DT)

def execLdVDT (x : Reg) (s : State) : StepOutcome := retire (ldVDTEffect x s)

/-- Fx15 LD DT, Vx (R233). -/
def ldDTVEffect (x : Reg) (s : State) : Effect := .ok (s.setDT (s.reg x))

def execLdDTV (x : Reg) (s : State) : StepOutcome := retire (ldDTVEffect x s)

/-- Fx18 LD ST, Vx (R234). -/
def ldSTVEffect (x : Reg) (s : State) : Effect := .ok (s.setST (s.reg x))

def execLdSTV (x : Reg) (s : State) : StepOutcome := retire (ldSTVEffect x s)

/-- Fx0A LD Vx, K (R236): with no key pressed the next PC is P again; else V[x] takes the lowest pressed key's number. -/
def ldVKEffect (x : Reg) (s : State) : Effect :=
  match lowestKey s with
  | none => .ok (s.transferTo s.PC)
  | some k => .ok (s.setReg x (BitVec.ofNat 8 k.val))

def execLdVK (x : Reg) (s : State) : StepOutcome := retire (ldVKEffect x s)

end Sys2Proof.Machine
end

