-- ==== Sys2Proof/Machine/Cycle.lean ====
section
/-! DEFINITION. The step of spec/40_core_cycle.md R100 to R107 with its result, and the frame sequencer of R120 to R124. -/

namespace Sys2Proof.Machine

/-- FETCH (R101): both bytes must be in memory; the byte at the lower address is the high byte (R56). -/
def fetch (s : State) : Except Fault Word :=
  if s.PC.toNat > 0xFFE then .error (.pcOutOfBounds s.PC)
  else .ok (wordOfBytes (s.M.read s.PC.toNat) (s.M.read (s.PC.toNat + 1)))

/-- DECODE (R102): an unrecognized word raises `UnrecognizedOpcode`. -/
def decodePhase (c : Config) (op : Word) : Except Fault Instr :=
  match decodeWord c op with
  | some i => .ok i
  | none => .error (.unrecognizedOpcode op)

/-- The result of `STEP` (R91, R105): the fetched word and the state after, or the error, or no transition. An error
carries no state because the state does not change (R256; D12, log 17). -/
inductive StepResult where
  | ok (op : Word) (s : State)
  | err (e : Fault)
  | refused (r : Refusal)
deriving DecidableEq, Repr

/-- A step's result with the word it fetched. -/
def StepResult.ofOutcome (op : Word) : StepOutcome → StepResult
  | .next s => .ok op s
  | .fault e => .err e
  | .refused r => .refused r

/-- A step's result without the word it fetched. -/
def StepResult.outcome : StepResult → StepOutcome
  | .ok _ s => .next s
  | .err e => .fault e
  | .refused r => .refused r

/-- `step()` of R107: FETCH, DECODE, then EXECUTE and ADVANCE (`exec`). -/
def stepResult (s : State) : StepResult :=
  match fetch s with
  | .error e => .err e
  | .ok op =>
    match decodePhase ironchip op with
    | .error e => .err e
    | .ok i => StepResult.ofOutcome op (exec i s)

/-! ### The frame sequencer -/

/-- One timer down by one, floor 0 (R120). -/
def tickTimer (t : Byte) : Byte := if t.toNat > 0 then t - 1 else t

/-- The timer tick (R120). -/
def tick (s : State) : State := (s.setDT (tickTimer s.DT)).setST (tickTimer s.ST)

/-- The draw test of R121: `(op & 0xF000) == 0xD000`. -/
def isDraw (op : Word) : Bool := op &&& 0xF000 == 0xD000

/-- How a frame ends (R91, R121): with `Ok`, or with the first error, keeping the tick and every step before it. -/
inductive FrameResult where
  | ok (s : State)
  | err (e : Fault) (s : State)
  | refused (r : Refusal)
deriving DecidableEq, Repr

/-- The step loop of R124 over the step `stp`: at most `n` steps, ending at once after a draw and at the first error. -/
def frameLoop (stp : State → StepResult) : Nat → State → FrameResult
  | 0, s => .ok s
  | n + 1, s =>
    match stp s with
    | .err e => .err e s
    | .refused r => .refused r
    | .ok op s' => if isDraw op then .ok s' else frameLoop stp n s'

/-- `frame(n)` (R124): the tick, whatever `n` is, then the loop. -/
def frame (n : Nat) (s : State) : FrameResult := frameLoop stepResult n (tick s)

/-! ### Placing an instruction where the next fetch reads it -/

/-- The state's next fetch address: PC, or 0x200 where no fetch at PC is possible (log 29). -/
def fetchAddr (s : State) : Word := if s.PC.toNat > 0xFFE then 0x200 else s.PC

/-- `s` with the word `op` stored, high byte first, where the next step fetches. -/
def placeWord (s : State) (op : Word) : State :=
  let a := fetchAddr s
  (s.setPC a).setM (s.M.writeAll a.toNat (bytesOfWord op))

end Sys2Proof.Machine
end

