-- ==== Sys2Proof/Machine/Step.lean ====
section
/-! DEFINITION. One step of the core (spec/40_core_cycle.md R107), and the host's placing of one instruction. -/

namespace Sys2Proof.Machine

/-- One `STEP` (R107): the next state, or the error the step ends in. -/
def step (s : State) : Host.Outcome State Fault Refusal := (stepResult s).outcome

/-- `s` with the table word `w` of `nbits` bits stored where `step` fetches next; the bits above `nbits` are 0. It stands
for the load of a program from outside (LOAD_ROM, R128, R282; log 28). -/
def State.withFetchWord (s : State) (nbits w : Nat) : State := placeWord s (BitVec.ofNat 16 (w % 2 ^ nbits))

end Sys2Proof.Machine
end

