-- ==== Sys2Proof/Machine/Commands.lean ====
section
/-! DEFINITION. The host's commands (spec/40_core_cycle.md R91, R128 to R134): reset, ROM load, step, frame, key events and
the validated debug port. Each is one atomic transition (R59, R90). -/

namespace Sys2Proof.Machine

/-- The number of an error in the spec's own result encoding (R250; D2, log 30). -/
def Fault.code : Fault → Nat
  | .pcOutOfBounds _ => 1
  | .unrecognizedOpcode _ => 2
  | .spOutOfBounds _ => 3
  | .execAddrOutOfBounds _ => 4
  | .keyOutOfBounds _ => 5
  | .romTooBig _ => 6
  | .addrOutOfBounds _ => 7
  | .noRegister _ => 8
  | .noPixel _ _ => 9
  | .indexTooBig _ => 10
  | .stackAddrOutOfBounds _ => 11

/-- A field and index a debug get names (R133). -/
inductive DbgField where
  | mem (a : Nat)
  | reg (r : Nat)
  | pixel (x y : Nat)
  | index
  | delay
  | sound
  | pc
  | sp
  | slot (j : Nat)
  | key (k : Nat)
deriving DecidableEq, Repr

/-- A field, index and value a debug set names; each value has the width R133's table gives it (log 22). -/
inductive DbgWrite where
  | mem (a : Nat) (v : Byte)
  | reg (r : Nat) (v : Byte)
  | pixel (x y : Nat) (b : Bool)
  | index (v : Word)
  | delay (v : Byte)
  | sound (v : Byte)
  | pc (v : Word)
  | sp (v : Nat)
  | slot (j : Nat) (v : Word)
  | key (k : Nat) (b : Bool)
deriving DecidableEq, Repr

/-- A value a debug get returns. -/
inductive DbgValue where
  | byte (v : Byte)
  | word (v : Word)
  | num (v : Nat)
  | bool (b : Bool)
deriving DecidableEq, Repr

/-- The field and index a debug set names. -/
def DbgWrite.field : DbgWrite → DbgField
  | .mem a _ => .mem a
  | .reg r _ => .reg r
  | .pixel x y _ => .pixel x y
  | .index _ => .index
  | .delay _ => .delay
  | .sound _ => .sound
  | .pc _ => .pc
  | .sp _ => .sp
  | .slot j _ => .slot j
  | .key k _ => .key k

/-- The value a debug set names, as the get of the same field returns it. -/
def DbgWrite.value : DbgWrite → DbgValue
  | .mem _ v => .byte v
  | .reg _ v => .byte v
  | .pixel _ _ b => .bool b
  | .index v => .word v
  | .delay v => .byte v
  | .sound v => .byte v
  | .pc v => .word v
  | .sp v => .num v
  | .slot _ v => .word v
  | .key _ b => .bool b

/-- A command of R91. -/
inductive Command where
  | reset
  | loadRom (b : List Byte)
  | step
  | frame (n : Nat)
  | keyDown (k : Nat)
  | keyUp (k : Nat)
  | dbgGet (f : DbgField)
  | dbgSet (w : DbgWrite)
deriving DecidableEq, Repr

/-- The result a command returns (R91). -/
inductive Result where
  /-- `Ok` -/
  | ok
  /-- `Ok(op)` of STEP (R105) -/
  | okWord (op : Word)
  /-- `Ok(value)` of DBG_GET -/
  | okValue (v : DbgValue)
  /-- `Err(e)` -/
  | err (e : Fault)
  /-- the key events return nothing -/
  | nothing
deriving DecidableEq, Repr

/-- What a command does: a state and a result, or no transition (R258). -/
inductive Reply where
  | done (s : State) (r : Result)
  | refused (r : Refusal)
deriving DecidableEq, Repr

/-- RESET (R93, R129, R280): the reset state from any state. The count of draws is the model's own and goes on, since the
generator is outside the core (R38, log 3). -/
def resetCommand (s : State) : State := { State.reset with rndTaken := s.rndTaken }

/-- LOAD_ROM (R128): more than 0xE00 bytes are an error; else the bytes go to 0x200 up, and nothing else changes. -/
def loadRom (b : List Byte) (s : State) : Reply :=
  if b.length > 0xE00 then .done s (.err (.romTooBig b.length))
  else .done (s.setM (s.M.writeAll 0x200 b)) .ok

/-- KEY_DOWN and KEY_UP (R130); a key above 15 is outside the host's contract (R258, D21, log 21). -/
def keyEvent (down : Bool) (k : Nat) (s : State) : Reply :=
  if h : k < 16 then .done (s.setKey ⟨k, h⟩ down) .nothing else .refused (.keyOutsideContract k)

/-- DBG_GET (R133): the index is checked, and nothing changes (R134). -/
def dbgGet (f : DbgField) (s : State) : Except Fault DbgValue :=
  match f with
  | .mem a => if a > 0xFFF then .error (.addrOutOfBounds a) else .ok (.byte (s.M.read a))
  | .reg r => if h : r < 16 then .ok (.byte (s.reg ⟨r, h⟩)) else .error (.noRegister r)
  | .pixel x y =>
    if h : x < 64 ∧ y < 32 then .ok (.bool (s.FB.pixel ⟨y, h.2⟩ ⟨x, h.1⟩)) else .error (.noPixel x y)
  | .index => .ok (.word s.I)
  | .delay => .ok (.byte s.DT)
  | .sound => .ok (.byte s.ST)
  | .pc => .ok (.word s.PC)
  | .sp => .ok (.num s.SP.val)
  | .slot j => if h : j < 16 then .ok (.word (s.slot ⟨j, h⟩)) else .error (.stackAddrOutOfBounds j)
  | .key k => if h : k < 16 then .ok (.bool (s.key ⟨k, h⟩)) else .error (.keyOutOfBounds k)

/-- DBG_SET (R133): the index is checked, then the value, then exactly that field is written (R134). -/
def dbgSet (w : DbgWrite) (s : State) : Effect :=
  match w with
  | .mem a v => if a > 0xFFF then raise (.addrOutOfBounds a) else .ok (s.setM (s.M.write a v))
  | .reg r v => if h : r < 16 then .ok (s.setReg ⟨r, h⟩ v) else raise (.noRegister r)
  | .pixel x y b =>
    if h : x < 64 ∧ y < 32 then .ok (s.setFB (s.FB.setPixel ⟨y, h.2⟩ ⟨x, h.1⟩ b)) else raise (.noPixel x y)
  | .index v => if v.toNat > 0xFFF then raise (.indexTooBig v.toNat) else .ok (s.setI v)
  | .delay v => .ok (s.setDT v)
  | .sound v => .ok (s.setST v)
  | .pc v => if v.toNat > 0xFFF then raise (.pcOutOfBounds v) else .ok (s.setPC v)
  | .sp v => if h : v < 16 then .ok (s.setSP ⟨v, h⟩) else raise (.spOutOfBounds v)
  | .slot j v =>
    if h : j < 16 then
      if v.toNat > 0xFFF then raise (.stackAddrOutOfBounds v.toNat) else .ok (s.setSlot ⟨j, h⟩ v)
    else raise (.stackAddrOutOfBounds j)
  | .key k b => if h : k < 16 then .ok (s.setKey ⟨k, h⟩ b) else raise (.keyOutOfBounds k)

/-- STEP as a command: an error leaves the state as it was (R256; D12, log 17). -/
def stepCommand (s : State) : Reply :=
  match stepResult s with
  | .ok op s' => .done s' (.okWord op)
  | .err e => .done s (.err e)
  | .refused r => .refused r

/-- FRAME as a command: an error keeps the tick and the steps before it (R121, R256). -/
def frameCommand (n : Nat) (s : State) : Reply :=
  match frame n s with
  | .ok s' => .done s' .ok
  | .err e s' => .done s' (.err e)
  | .refused r => .refused r

/-- DBG_GET as a command. -/
def dbgGetCommand (f : DbgField) (s : State) : Reply :=
  match dbgGet f s with
  | .ok v => .done s (.okValue v)
  | .error e => .done s (.err e)

/-- DBG_SET as a command. -/
def dbgSetCommand (w : DbgWrite) (s : State) : Reply :=
  match dbgSet w s with
  | .ok s' => .done s' .ok
  | .error e => .done s (.err e)

/-- One command of the host, run to completion (R90, R91). Nothing is latched by an error: every command is accepted after
one (R260; D33, log 26). -/
def command (cmd : Command) (s : State) : Reply :=
  match cmd with
  | .reset => .done (resetCommand s) .ok
  | .loadRom b => loadRom b s
  | .step => stepCommand s
  | .frame n => frameCommand n s
  | .keyDown k => keyEvent true k s
  | .keyUp k => keyEvent false k s
  | .dbgGet f => dbgGetCommand f s
  | .dbgSet w => dbgSetCommand w s

/-- Commands in order, one at a time (R94). A refused command refuses the whole run (R258). -/
def runCommands : List Command → State → Option State
  | [], s => some s
  | c :: cs, s =>
    match command c s with
    | .done s' _ => runCommands cs s'
    | .refused _ => none

end Sys2Proof.Machine
end

