-- ==== Sys2Proof/Machine/Variants.lean ====
section
/-! DEFINITION. The same machine under EVERY value of the parameters of spec/00_scope.md R8 (the alternative readings R73,
R77, R170 and R192 define), and the step's phases one by one (spec/40_core_cycle.md R100). At `ironchip` it is `step`. -/

namespace Sys2Proof.Machine

/-- The EXECUTE phase of an instruction under the parameters `c` (R103): PC still holds P. -/
def executePhase (c : Config) (i : Instr) (s : State) : Effect :=
  match i with
  | .cls => clsEffect s
  | .ret => retEffect s
  | .jp nnn => jpEffect nnn s
  | .call nnn => callEffect nnn s
  | .seVB x kk => seVBEffect x kk s
  | .sneVB x kk => sneVBEffect x kk s
  | .seVV x y => seVVEffect x y s
  | .ldVB x kk => ldVBEffect x kk s
  | .addVB x kk => addVBEffect x kk s
  | .ldVV x y => ldVVEffect x y s
  | .orVV x y => orVVEffect x y s
  | .andVV x y => andVVEffect x y s
  | .xorVV x y => xorVVEffect x y s
  | .addVV x y => addVVEffect c x y s
  | .sub x y => subEffect c x y s
  | .shr x y => shrEffect c x y s
  | .subn x y => subnEffect c x y s
  | .shl x y => shlEffect c x y s
  | .sneVV x y => sneVVEffect x y s
  | .ldI nnn => ldIEffect nnn s
  | .jpV0 nnn => jpV0Effect nnn s
  | .rnd x kk => rndEffect x kk s
  | .drw x y n => drwEffect x y n s
  | .skp x => skpEffect x s
  | .sknp x => sknpEffect x s
  | .ldVDT x => ldVDTEffect x s
  | .ldVK x => ldVKEffect x s
  | .ldDTV x => ldDTVEffect x s
  | .ldSTV x => ldSTVEffect x s
  | .addIV x => addIVEffect x s
  | .ldFV x => ldFVEffect c x s
  | .ldBV x => ldBVEffect x s
  | .ldMV x => ldMVEffect x s
  | .ldVM x => ldVMEffect x s

/-- `step()` of R107 under the parameters `c`. -/
def stepUnder (c : Config) (s : State) : StepResult :=
  match fetch s with
  | .error e => .err e
  | .ok op =>
    match decodePhase c op with
    | .error e => .err e
    | .ok i => StepResult.ofOutcome op (retire (executePhase c i s))

/-- `frame(n)` of R124 under the parameters `c`. -/
def frameUnder (c : Config) (n : Nat) (s : State) : FrameResult := frameLoop (stepUnder c) n (tick s)

/-- Memory as construction and reset leave it under the parameters `c` (R39): every byte written with its reset value. -/
def resetMemory (c : Config) : Memory := Memory.writeAll [] 0 ((List.range 4096).map (resetByte c))

/-- The reset state under the parameters `c` (R39). -/
def resetUnder (c : Config) : State := State.reset.setM (resetMemory c)

/-! ### The step FSM (R100): the spec's own names for the phases, not observable between commands (R90; log 27) -/

/-- The states of R100's table, each with what it holds. -/
inductive Phase where
  | idle
  | fetch
  | decode (op : Word)
  | execute (op : Word) (i : Instr)
  | advance (op : Word)
  | done (op : Word)
  | error (e : Fault)
deriving DecidableEq, Repr

/-- One transition of R100's table once `STEP` has been accepted. EXECUTE leaves PC at the target minus 2, ADVANCE adds
2 (R104). `done` and `error` hand over their result and are idle again. -/
def phaseStep (c : Config) : Phase → State → Phase × State
  | .idle, s => (.idle, s)
  | .fetch, s =>
    match Machine.fetch s with
    | .ok op => (.decode op, s)
    | .error e => (.error e, s)
  | .decode op, s =>
    match decodePhase c op with
    | .ok i => (.execute op i, s)
    | .error e => (.error e, s)
  | .execute op i, s =>
    match executePhase c i s with
    | .ok s' => (.advance op, s')
    | .error e => (.error e, s)
  | .advance op, s => (.done op, s.advance)
  | .done _, s => (.idle, s)
  | .error _, s => (.idle, s)

/-- `n` transitions. -/
def runPhases (c : Config) : Nat → Phase × State → Phase × State
  | 0, p => p
  | n + 1, p => runPhases c n (phaseStep c p.1 p.2)

end Sys2Proof.Machine
end

