-- ==== Sys2Proof/Safety.lean ====
section
/-! DEFINITION. What claims are stated in: the invariant, the software limits, the writers of each piece of state, where
each instruction leaves PC, and runs of steps and of commands. -/

namespace Sys2Proof.Machine

/-- The invariant of the core: memory in canonical form, PC at most the highest target (R104: 0x10FE), and no stack slot
above 0xFFF (a call pushes an address it was fetched from, R143; the debug port checks, R133). SP in [0,15] (R30) is in
the type of SP. -/
structure Inv (s : State) : Prop where
  mem : s.M.wf
  pc : s.PC.toNat ≤ 0x10FE
  slots : ∀ j : Fin 16, (s.slot j).toNat ≤ 0xFFF

/-- The software limits of R288 that an instruction itself checks: it completes exactly under these. -/
def Completes (i : Instr) (s : State) : Prop :=
  match i with
  | .ret => s.SP.val ≠ 0
  | .call _ => s.SP.val ≠ 15
  | .skp x | .sknp x => (s.reg x).toNat ≤ 15
  | .drw _ _ n => n = 0 ∨ s.I.toNat + (n - 1) ≤ 0xFFF
  | .ldBV _ => s.I.toNat + 2 ≤ 0xFFF
  | .ldMV x | .ldVM x => s.I.toNat + x.val ≤ 0xFFF
  | .cls | .jp _ | .seVB _ _ | .sneVB _ _ | .seVV _ _ | .ldVB _ _ | .addVB _ _ | .ldVV _ _ | .orVV _ _ | .andVV _ _
  | .xorVV _ _ | .addVV _ _ | .sub _ _ | .shr _ _ | .subn _ _ | .shl _ _ | .sneVV _ _ | .ldI _ | .jpV0 _ | .rnd _ _
  | .ldVDT _ | .ldVK _ | .ldDTV _ | .ldSTV _ | .addIV _ | .ldFV _ => True

/-- May the instruction write register `r` (the `writes` column of R24)? -/
def MayWriteReg (i : Instr) (r : Reg) : Prop :=
  match i with
  | .ldVB x _ | .addVB x _ | .ldVV x _ | .orVV x _ | .andVV x _ | .xorVV x _ | .rnd x _ | .ldVDT x | .ldVK x => r = x
  | .addVV x _ | .sub x _ | .shr x _ | .subn x _ | .shl x _ => r = x ∨ r = Reg.vf
  | .drw _ _ _ => r = Reg.vf
  | .ldVM x => r ≤ x
  | .cls | .ret | .jp _ | .call _ | .seVB _ _ | .sneVB _ _ | .seVV _ _ | .sneVV _ _ | .ldI _ | .jpV0 _ | .skp _ | .sknp _
  | .ldDTV _ | .ldSTV _ | .addIV _ | .ldFV _ | .ldBV _ | .ldMV _ => False

/-- `P + 4` if the skip's condition holds, else `P + 2` (R144). -/
def pcAfterSkip (cond : Bool) (s : State) : Word := if cond then s.PC + 4 else s.PC + 2

/-- Where a successful instruction leaves PC (R26), in 16-bit arithmetic; `P` is the PC before. -/
def pcAfter (i : Instr) (s : State) : Word :=
  match i with
  | .jp nnn | .call nnn => addrOf nnn
  | .jpV0 nnn => indexedTarget s nnn
  | .ret => s.slot s.SP + 2
  | .seVB x kk => pcAfterSkip (s.reg x == kk) s
  | .sneVB x kk => pcAfterSkip (s.reg x != kk) s
  | .seVV x y => pcAfterSkip (s.reg x == s.reg y) s
  | .sneVV x y => pcAfterSkip (s.reg x != s.reg y) s
  | .skp x => pcAfterSkip (s.key (Fin.ofNat 16 (s.reg x).toNat)) s
  | .sknp x => pcAfterSkip (!s.key (Fin.ofNat 16 (s.reg x).toNat)) s
  | .ldVK _ => if lowestKey s = none then s.PC else s.PC + 2
  | .cls | .ldVB _ _ | .addVB _ _ | .ldVV _ _ | .orVV _ _ | .andVV _ _ | .xorVV _ _ | .addVV _ _ | .sub _ _ | .shr _ _
  | .subn _ _ | .shl _ _ | .ldI _ | .rnd _ _ | .drw _ _ _ | .ldVDT _ | .ldDTV _ | .ldSTV _ | .addIV _ | .ldFV _
  | .ldBV _ | .ldMV _ | .ldVM _ => s.PC + 2

/-- `StepsTo ws s t`: successful steps that fetched the words `ws`, in order, lead from `s` to `t` (R105). -/
def StepsTo : List Word → State → State → Prop
  | [], s, t => s = t
  | w :: ws, s, t => ∃ u, stepResult s = .ok w u ∧ StepsTo ws u t

/-- Instructions executed one after another, each as `exec` has it, stopping at the first that does not complete. -/
def execAll : List Instr → State → StepOutcome
  | [], s => .next s
  | i :: is, s =>
    match exec i s with
    | .next t => execAll is t
    | .fault e => .fault e
    | .refused r => .refused r

/-- States the host can bring about from reset by commands of R91. -/
def Reachable (s : State) : Prop := ∃ cs, runCommands cs State.reset = some s

/-- A step is safe where it neither ends in an error nor is refused. -/
def StepSafe (s : State) : Prop := ∃ t, step s = .next t

end Sys2Proof.Machine
end

