-- ==== Sys2Proof/Certificates/Slice0/Obligations.lean ====
section
/-! DEFINITION. The statements for the provers, from the numbered rules of spec/. A docstring names the rule, and the spec's
decision or the model's log entry where the statement rests on one. -/

open Sys2Proof Sys2Proof.Machine

/-- O1. Words of the spec's own vectors decode as the spec says (R73, R75; the strict families are decisions D13 and D14, logs 7 and 8). -/
def Obligations.SampleWordsDecodeToTheirInstructions : Prop :=
  decodeTableWord 16 0x00E0 = some .cls ∧ decodeTableWord 16 0x00EE = some .ret ∧
  decodeTableWord 16 0x1321 = some (.jp 0x321) ∧ decodeTableWord 16 0x2208 = some (.call 0x208) ∧
  decodeTableWord 16 0x3342 = some (.seVB 3 0x42) ∧ decodeTableWord 16 0x5120 = some (.seVV 1 2) ∧
  decodeTableWord 16 0x6A5C = some (.ldVB 10 0x5C) ∧ decodeTableWord 16 0x801E = some (.shl 0 1) ∧
  decodeTableWord 16 0xA300 = some (.ldI 0x300) ∧ decodeTableWord 16 0xC30F = some (.rnd 3 0x0F) ∧
  decodeTableWord 16 0xD125 = some (.drw 1 2 5) ∧ decodeTableWord 16 0xE29E = some (.skp 2) ∧
  decodeTableWord 16 0xF265 = some (.ldVM 2) ∧
  decodeTableWord 16 0x0123 = none ∧ decodeTableWord 16 0x01E0 = none ∧ decodeTableWord 16 0x5121 = none ∧
  decodeTableWord 16 0x8128 = none ∧ decodeTableWord 16 0xE19F = none ∧ decodeTableWord 16 0xF1FF = none

/-- O2. The encoder is written from the formats of R71, the decoder from R73 and R72. -/
def Obligations.DecodingEncodedInstructionGivesItBack : Prop :=
  ∀ (i : Instr) (rest : List Byte), i.WellFormed → decode ironchip (encodeBytes i ++ rest) = .ok (i, rest)

/-- O3. At this core's strict parameters only: that no bit of an accepted word of families 0, 5 and 9 is ignored is the spec's decision D13 and D14 (logs 7 and 8). The decoding is R73; the y of the shifts, which EXECUTE ignores (R77), is kept as decoded. -/
def Obligations.EncodingDecodedWordGivesItBack : Prop :=
  ∀ (op : Word) (i : Instr), decodeWord ironchip op = some i → i.WellFormed ∧ encode i = op

/-- O4. The classes of R75 at the default parameters; strictness in families 0, 5 and 9 is the spec's decision (D13, D14; logs 7 and 8). -/
def Obligations.RejectedWordsAreExactlyTheReservedClasses : Prop :=
  ∀ op : Word, decodeWord ironchip op = none ↔
    (op.toNat < 0x1000 ∧ op.toNat ≠ 0x00E0 ∧ op.toNat ≠ 0x00EE) ∨
    ((op.toNat / 0x1000 = 0x5 ∨ op.toNat / 0x1000 = 0x9) ∧ op.toNat % 16 ≠ 0) ∨
    (op.toNat / 0x1000 = 0x8 ∧ op.toNat % 16 ∈ [0x8, 0x9, 0xA, 0xB, 0xC, 0xD, 0xF]) ∨
    (op.toNat / 0x1000 = 0xE ∧ op.toNat % 0x100 ∉ [0x9E, 0xA1]) ∨
    (op.toNat / 0x1000 = 0xF ∧ op.toNat % 0x100 ∉ [0x07, 0x0A, 0x15, 0x18, 0x1E, 0x29, 0x33, 0x55, 0x65])

/-- O5. The table's masks and patterns (spec/opcode_table.json) against the decoder of R73, which was written apart from them. That the decoder takes no other word of families 0, 5 and 9 is the spec's decision D13 and D14 (strict parameters; logs 7 and 8). -/
def Obligations.OpcodeTableRowsAreDisjointAndDecide : Prop :=
  (∀ (op : Word) (r q : OpcodeRow), r ∈ opcodeTable → q ∈ opcodeTable → r.matches op = true → q.matches op = true → r = q) ∧
  (∀ op : Word, (decodeWord ironchip op).map Instr.mnemonic = (opcodeTable.find? (fun r => r.matches op)).map (·.mnemonic))

/-- O6. The alternative readings of R73 and R77, decisions D13 and D14 (logs 7 and 8). -/
def Obligations.LenientParametersOnlyAddWords : Prop :=
  (∀ (c : Config) (op : Word) (i : Instr), decodeWord ironchip op = some i → decodeWord c op = some i) ∧
  (∀ (c : Config) (x : Reg), c.decode0Strict = false →
    decodeWord c (0x0#4 ++ (BitVec.ofNat 4 x.val ++ 0xE0#8) : Word) = some .cls ∧
    decodeWord c (0x0#4 ++ (BitVec.ofNat 4 x.val ++ 0xEE#8) : Word) = some .ret) ∧
  (∀ (c : Config) (x y : Reg) (z : BitVec 4), c.decode59Strict = false →
    decodeWord c (0x5#4 ++ (BitVec.ofNat 4 x.val ++ (BitVec.ofNat 4 y.val ++ z)) : Word) = some (.seVV x y) ∧
    decodeWord c (0x9#4 ++ (BitVec.ofNat 4 x.val ++ (BitVec.ofNat 4 y.val ++ z)) : Word) = some (.sneVV x y))

/-- O7. R107's step. ADVANCE is part of exec (R104; log 23), so the step adds nothing around it. -/
def Obligations.StepRunsTheDecodedInstruction : Prop :=
  ∀ (s : State) (i : Instr), s.PC.toNat ≤ 0xFFE →
    decode ironchip [s.M.read s.PC.toNat, s.M.read (s.PC.toNat + 1)] = .ok (i, []) →
    step s = exec i s ∧
    ∀ t : State, exec i s = .next t →
      stepResult s = .ok (s.M.read s.PC.toNat ++ s.M.read (s.PC.toNat + 1) : Word) t

/-- O8. R107's pseudocode, branch by branch. The bound 0xFFE of the fetch is the spec's decision D6 (log 11), the ADVANCE modulo 2^16 over the intermediate PC of a transfer its D26 (log 23). -/
def Obligations.StepFollowsThePseudocode : Prop :=
  ∀ s : State,
    (s.PC.toNat > 0xFFE → stepResult s = .err (.pcOutOfBounds s.PC)) ∧
    (s.PC.toNat ≤ 0xFFE → ∀ op : Word, op = (s.M.read s.PC.toNat ++ s.M.read (s.PC.toNat + 1) : Word) →
      (decodeWord ironchip op = none → stepResult s = .err (.unrecognizedOpcode op)) ∧
      (∀ i : Instr, decodeWord ironchip op = some i →
        (∀ e : Fault, executePhase ironchip i s = .error e → stepResult s = .err e) ∧
        (∀ u : State, executePhase ironchip i s = .ok u → stepResult s = .ok op { u with PC := u.PC + 2 })))

/-- O9. R102. -/
def Obligations.UnrecognizedWordRaisesInDecode : Prop :=
  ∀ (s : State) (op : Word), s.PC.toNat ≤ 0xFFE → op = (s.M.read s.PC.toNat ++ s.M.read (s.PC.toNat + 1) : Word) →
    decodeWord ironchip op = none →
      step s = .fault (.unrecognizedOpcode op) ∧ command .step s = .done s (.err (.unrecognizedOpcode op))

/-- O10. R100's state table against R107; the phases are the spec's framing (D1, log 27), and that ERROR leaves the state as it was is its decision D12 (log 17). -/
def Obligations.StepFsmReachesTheStepsResult : Prop :=
  ∀ s : State,
    (∀ (op : Word) (t : State), stepResult s = .ok op t → runPhases ironchip 4 (.fetch, s) = (.done op, t)) ∧
    (∀ e : Fault, stepResult s = .err e → ∃ k : Nat, k ≤ 3 ∧ runPhases ironchip k (.fetch, s) = (.error e, s)) ∧
    (∀ (p : Phase) (t : State), (∃ op, p = .done op) ∨ (∃ e, p = .error e) → phaseStep ironchip p t = (.idle, t))

/-- O11. R288's limits, which rest on the spec's decisions D8, D9 and D10 (logs 13, 14, 15). -/
def Obligations.ExecCompletesExactlyWithinTheSoftwareLimits : Prop :=
  (∀ (i : Instr) (s : State), (∃ t : State, exec i s = .next t) ↔
    match i with
    | .ret => s.SP.val ≠ 0
    | .call _ => s.SP.val ≠ 15
    | .skp x => s.V[x].toNat ≤ 15
    | .sknp x => s.V[x].toNat ≤ 15
    | .drw _ _ n => n = 0 ∨ s.I.toNat + (n - 1) ≤ 0xFFF
    | .ldBV _ => s.I.toNat + 2 ≤ 0xFFF
    | .ldMV x => s.I.toNat + x.val ≤ 0xFFF
    | .ldVM x => s.I.toNat + x.val ≤ 0xFFF
    | _ => True) ∧
  (∀ (i : Instr) (s : State) (r : Refusal), exec i s ≠ .refused r) ∧ (∀ (s : State) (r : Refusal), step s ≠ .refused r)

/-- O12. R257 with the causes of R250; the errors named there as the spec's own are its decisions D8 to D11 (logs 13 to 16). -/
def Obligations.InstructionErrorsHaveTheirOneCause : Prop :=
  (∀ (i : Instr) (s : State) (e : Fault), exec i s = .fault e ↔
    (i = .ret ∧ s.SP.val = 0 ∧ e = .spOutOfBounds 0) ∨
    (∃ nnn, i = .call nnn ∧ s.SP.val = 15 ∧ e = .spOutOfBounds 16) ∨
    (∃ x, (i = .skp x ∨ i = .sknp x) ∧ s.V[x].toNat > 15 ∧ e = .keyOutOfBounds s.V[x].toNat) ∨
    (((∃ x y n, i = .drw x y n ∧ n > 0 ∧ s.I.toNat + (n - 1) > 0xFFF) ∨ (∃ x, i = .ldBV x ∧ s.I.toNat + 2 > 0xFFF) ∨
      (∃ x, (i = .ldMV x ∨ i = .ldVM x) ∧ s.I.toNat + x.val > 0xFFF)) ∧
      e = .execAddrOutOfBounds (max s.I.toNat 0x1000))) ∧
  (∀ (s : State) (k : Nat), s.I.toNat + k > 0xFFF →
    max s.I.toNat 0x1000 > 0xFFF ∧ ∃ j : Nat, j ≤ k ∧ max s.I.toNat 0x1000 = s.I.toNat + j ∧
      ∀ h : Nat, h < j → s.I.toNat + h ≤ 0xFFF)

/-- O13. R256; that a failing step changes nothing is the spec's decision D12 (log 17). -/
def Obligations.ErrorsLeaveTheStateUnchanged : Prop :=
  (∀ (c : Command) (s t : State) (e : Fault), (∀ n, c ≠ .frame n) → command c s = .done t (.err e) → t = s) ∧
  (∀ (n : Nat) (s t : State) (e : Fault), command (.frame n) s = .done t (.err e) →
    ∃ ws : List Word, StepsTo ws (tick s) t ∧ ws.length < n ∧ (∀ w ∈ ws, w &&& 0xF000 ≠ 0xD000) ∧ step t = .fault e)

/-- O14. R142 and R149; targets below 2 and above 0xFFF are the spec's decisions D26 and D27 (logs 23 and 24). -/
def Obligations.JumpsSetTheProgramCounter : Prop :=
  ∀ (s : State) (nnn : BitVec 12),
    decodeWord ironchip (0x1#4 ++ nnn : Word) = some (.jp nnn) ∧ decodeWord ironchip (0xB#4 ++ nnn : Word) = some (.jpV0 nnn) ∧
    exec (.jp nnn) s = .next { s with PC := BitVec.ofNat 16 nnn.toNat } ∧
    exec (.jpV0 nnn) s = .next { s with PC := BitVec.ofNat 16 (nnn.toNat + s.V[(0 : Fin 16)].toNat) } ∧
    nnn.toNat + s.V[(0 : Fin 16)].toNat ≤ 0x10FE

/-- O15. R143; the payload 16 is the spec's decision D11 (log 16). -/
def Obligations.CallPushesItsAddressAndJumps : Prop :=
  ∀ (s : State) (nnn : BitVec 12),
    decodeWord ironchip (0x2#4 ++ nnn : Word) = some (.call nnn) ∧
    (∀ h : s.SP.val + 1 < 16, exec (.call nnn) s =
      .next { s with SP := ⟨s.SP.val + 1, h⟩, S := s.S.set (s.SP.val + 1) s.PC h, PC := BitVec.ofNat 16 nnn.toNat }) ∧
    (s.SP.val = 15 → exec (.call nnn) s = .fault (.spOutOfBounds 16))

/-- O16. R141; the error at SP = 0 is the spec's decision D10 (log 15). -/
def Obligations.ReturnGoesPastTheCallAndPops : Prop :=
  ∀ s : State,
    decodeWord ironchip (0x00EE : Word) = some .ret ∧
    (s.SP.val ≠ 0 → exec .ret s = .next { s with PC := s.S[s.SP] + 2, SP := s.SP - 1 }) ∧
    (s.SP.val = 0 → exec .ret s = .fault (.spOutOfBounds 0))

/-- O17. Quoted in R141: a call followed by return restores PC to two bytes past the call site; here for every nesting depth (R141, R143, R30). -/
def Obligations.NestedCallsReturnBehindTheFirstCall : Prop :=
  ∀ (s : State) (ts : List (BitVec 12)), ts ≠ [] → s.SP.val + ts.length ≤ 15 →
    ∃ t : State, execAll (ts.map Instr.call ++ List.replicate ts.length Instr.ret) s = .next t ∧
      t.PC = s.PC + 2 ∧ (∀ j : Fin 16, j ≤ s.SP → t.S[j] = s.S[j]) ∧
      t = { s with PC := s.PC + 2, S := t.S }

/-- O18. R30 and the last corner case of R143; the payload is decision D11 (log 16). -/
def Obligations.SixteenthNestedCallOverflows : Prop :=
  ∀ (s : State) (ts : List (BitVec 12)), s.SP.val = 0 →
    (ts.length ≤ 15 → ∃ t : State, execAll (ts.map Instr.call) s = .next t ∧ t.SP.val = ts.length ∧
      t.S[(0 : Fin 16)] = s.S[(0 : Fin 16)]) ∧
    (ts.length = 16 → execAll (ts.map Instr.call) s = .fault (.spOutOfBounds 16))

/-- O19. R145 and R146 with the skip of R144. -/
def Obligations.SkipsOnImmediate : Prop :=
  ∀ (s : State) (x : Reg) (kk : Byte),
    decodeWord ironchip (0x3#4 ++ (BitVec.ofNat 4 x.val ++ kk) : Word) = some (.seVB x kk) ∧
    decodeWord ironchip (0x4#4 ++ (BitVec.ofNat 4 x.val ++ kk) : Word) = some (.sneVB x kk) ∧
    exec (.seVB x kk) s = .next { s with PC := if s.V[x] = kk then s.PC + 4 else s.PC + 2 } ∧
    exec (.sneVB x kk) s = .next { s with PC := if s.V[x] = kk then s.PC + 2 else s.PC + 4 }

/-- O20. R147 and R148; the nibble 0 is the spec's decision D14 (log 8). -/
def Obligations.SkipsOnRegisters : Prop :=
  ∀ (s : State) (x y : Reg),
    decodeWord ironchip (0x5#4 ++ (BitVec.ofNat 4 x.val ++ (BitVec.ofNat 4 y.val ++ 0x0#4)) : Word) = some (.seVV x y) ∧
    decodeWord ironchip (0x9#4 ++ (BitVec.ofNat 4 x.val ++ (BitVec.ofNat 4 y.val ++ 0x0#4)) : Word) = some (.sneVV x y) ∧
    exec (.seVV x y) s = .next { s with PC := if s.V[x] = s.V[y] then s.PC + 4 else s.PC + 2 } ∧
    exec (.sneVV x y) s = .next { s with PC := if s.V[x] = s.V[y] then s.PC + 2 else s.PC + 4 }

/-- O21. R230 and R231; the error above 15 is the spec's decision D9 (log 14). -/
def Obligations.SkipsOnKey : Prop :=
  ∀ (s : State) (x : Reg),
    decodeWord ironchip (0xE#4 ++ (BitVec.ofNat 4 x.val ++ 0x9E#8) : Word) = some (.skp x) ∧
    decodeWord ironchip (0xE#4 ++ (BitVec.ofNat 4 x.val ++ 0xA1#8) : Word) = some (.sknp x) ∧
    (∀ k : Fin 16, s.V[x].toNat = k.val →
      exec (.skp x) s = .next { s with PC := if s.K[k] = true then s.PC + 4 else s.PC + 2 } ∧
      exec (.sknp x) s = .next { s with PC := if s.K[k] = true then s.PC + 2 else s.PC + 4 }) ∧
    (s.V[x].toNat > 15 →
      exec (.skp x) s = .fault (.keyOutOfBounds s.V[x].toNat) ∧ exec (.sknp x) s = .fault (.keyOutOfBounds s.V[x].toNat))

/-- O22. R160 and R161. -/
def Obligations.ImmediateLoadAndAdd : Prop :=
  ∀ (s : State) (x : Reg) (kk : Byte),
    decodeWord ironchip (0x6#4 ++ (BitVec.ofNat 4 x.val ++ kk) : Word) = some (.ldVB x kk) ∧
    decodeWord ironchip (0x7#4 ++ (BitVec.ofNat 4 x.val ++ kk) : Word) = some (.addVB x kk) ∧
    exec (.ldVB x kk) s = .next { s with V := s.V.set x kk, PC := s.PC + 2 } ∧
    exec (.addVB x kk) s =
      .next { s with V := s.V.set x (BitVec.ofNat 8 ((s.V[x].toNat + kk.toNat) % 256)), PC := s.PC + 2 }

/-- O23. R162 to R165. -/
def Obligations.MoveAndLogicWriteNoFlag : Prop :=
  ∀ (s : State) (x y : Reg),
    decodeWord ironchip (0x8#4 ++ (BitVec.ofNat 4 x.val ++ (BitVec.ofNat 4 y.val ++ 0x0#4)) : Word) = some (.ldVV x y) ∧
    decodeWord ironchip (0x8#4 ++ (BitVec.ofNat 4 x.val ++ (BitVec.ofNat 4 y.val ++ 0x1#4)) : Word) = some (.orVV x y) ∧
    decodeWord ironchip (0x8#4 ++ (BitVec.ofNat 4 x.val ++ (BitVec.ofNat 4 y.val ++ 0x2#4)) : Word) = some (.andVV x y) ∧
    decodeWord ironchip (0x8#4 ++ (BitVec.ofNat 4 x.val ++ (BitVec.ofNat 4 y.val ++ 0x3#4)) : Word) = some (.xorVV x y) ∧
    exec (.ldVV x y) s = .next { s with V := s.V.set x s.V[y], PC := s.PC + 2 } ∧
    exec (.orVV x y) s = .next { s with V := s.V.set x (s.V[x] ||| s.V[y]), PC := s.PC + 2 } ∧
    exec (.andVV x y) s = .next { s with V := s.V.set x (s.V[x] &&& s.V[y]), PC := s.PC + 2 } ∧
    exec (.xorVV x y) s = .next { s with V := s.V.set x (s.V[x] ^^^ s.V[y]), PC := s.PC + 2 }

/-- O24. R171, R172 and R174 with R166; that the flag wins when x = F is the spec's decision D15, FLAG_LAST (log 9). -/
def Obligations.AdditionAndSubtractionSetVF : Prop :=
  ∀ (s : State) (x y : Reg),
    decodeWord ironchip (0x8#4 ++ (BitVec.ofNat 4 x.val ++ (BitVec.ofNat 4 y.val ++ 0x4#4)) : Word) = some (.addVV x y) ∧
    decodeWord ironchip (0x8#4 ++ (BitVec.ofNat 4 x.val ++ (BitVec.ofNat 4 y.val ++ 0x5#4)) : Word) = some (.sub x y) ∧
    decodeWord ironchip (0x8#4 ++ (BitVec.ofNat 4 x.val ++ (BitVec.ofNat 4 y.val ++ 0x7#4)) : Word) = some (.subn x y) ∧
    exec (.addVV x y) s = .next { s with
      V := (s.V.set x (BitVec.ofNat 8 ((s.V[x].toNat + s.V[y].toNat) % 256))).set 15
        (if s.V[x].toNat + s.V[y].toNat > 255 then 1 else 0),
      PC := s.PC + 2 } ∧
    exec (.sub x y) s = .next { s with
      V := (s.V.set x (BitVec.ofNat 8 ((s.V[x].toNat + 256 - s.V[y].toNat) % 256))).set 15
        (if s.V[x].toNat ≥ s.V[y].toNat then 1 else 0),
      PC := s.PC + 2 } ∧
    exec (.subn x y) s = .next { s with
      V := (s.V.set x (BitVec.ofNat 8 ((s.V[y].toNat + 256 - s.V[x].toNat) % 256))).set 15
        (if s.V[y].toNat ≥ s.V[x].toNat then 1 else 0),
      PC := s.PC + 2 }

/-- O25. R173, R175 and R77; that the flag wins when x = F is the spec's decision D15 (log 9). -/
def Obligations.ShiftsStoreTheEvictedBitAndIgnoreY : Prop :=
  ∀ (s : State) (x y z : Reg),
    decodeWord ironchip (0x8#4 ++ (BitVec.ofNat 4 x.val ++ (BitVec.ofNat 4 y.val ++ 0x6#4)) : Word) = some (.shr x y) ∧
    decodeWord ironchip (0x8#4 ++ (BitVec.ofNat 4 x.val ++ (BitVec.ofNat 4 y.val ++ 0xE#4)) : Word) = some (.shl x y) ∧
    exec (.shr x y) s = .next { s with
      V := (s.V.set x (BitVec.ofNat 8 (s.V[x].toNat / 2))).set 15 (BitVec.ofNat 8 (s.V[x].toNat % 2)), PC := s.PC + 2 } ∧
    exec (.shl x y) s = .next { s with
      V := (s.V.set x (BitVec.ofNat 8 ((s.V[x].toNat * 2) % 256))).set 15 (BitVec.ofNat 8 (s.V[x].toNat / 128)),
      PC := s.PC + 2 } ∧
    exec (.shr x y) s = exec (.shr x z) s ∧ exec (.shl x y) s = exec (.shl x z) s

/-- O26. R170's two branches (decision D15, conflict C4; log 9). -/
def Obligations.FlagWriteOrderUnderBothReadings : Prop :=
  (∀ (c : Config) (s : State) (x y : Reg), x ≠ 15 →
    executePhase c (.addVV x y) s = executePhase ironchip (.addVV x y) s ∧
    executePhase c (.sub x y) s = executePhase ironchip (.sub x y) s ∧
    executePhase c (.subn x y) s = executePhase ironchip (.subn x y) s ∧
    executePhase c (.shr x y) s = executePhase ironchip (.shr x y) s ∧
    executePhase c (.shl x y) s = executePhase ironchip (.shl x y) s) ∧
  (∀ (c : Config) (s : State) (y : Reg), c.flagLast = false →
    executePhase c (.addVV 15 y) s = .ok { s with V := s.V.set 15 (s.V[(15 : Fin 16)] + s.V[y]) } ∧
    executePhase c (.sub 15 y) s = .ok { s with V := s.V.set 15 (s.V[(15 : Fin 16)] - s.V[y]) } ∧
    executePhase c (.subn 15 y) s = .ok { s with V := s.V.set 15 (s.V[y] - s.V[(15 : Fin 16)]) } ∧
    executePhase c (.shr 15 y) s = .ok { s with V := s.V.set 15 0 } ∧
    executePhase c (.shl 15 y) s = .ok { s with V := s.V.set 15 (BitVec.ofNat 8 (2 * (s.V[(15 : Fin 16)].toNat / 128))) })

/-- O27. R176: a free draw (D20). The byte is the model's free value and rndTaken the model's own field (logs 2 and 3); nothing here rests on either value. -/
def Obligations.RandomByteIsMaskedForEveryDraw : Prop :=
  ∀ (s : State) (x : Reg) (kk : Byte),
    decodeWord ironchip (0xC#4 ++ (BitVec.ofNat 4 x.val ++ kk) : Word) = some (.rnd x kk) ∧
    (∃ r : Byte, exec (.rnd x kk) s =
      .next { s with V := s.V.set x (r &&& kk), PC := s.PC + 2, rndTaken := s.rndTaken + 1 }) ∧
    (∀ r : Byte, retire (rndEffectWith r x kk s) =
      .next { s with V := s.V.set x (r &&& kk), PC := s.PC + 2, rndTaken := s.rndTaken + 1 }) ∧
    exec (.rnd x 0) s = .next { s with V := s.V.set x 0, PC := s.PC + 2, rndTaken := s.rndTaken + 1 }

/-- O28. R190. -/
def Obligations.LoadIndexImmediate : Prop :=
  ∀ (s : State) (nnn : BitVec 12),
    decodeWord ironchip (0xA#4 ++ nnn : Word) = some (.ldI nnn) ∧
    exec (.ldI nnn) s = .next { s with I := BitVec.ofNat 16 nnn.toNat, PC := s.PC + 2 } ∧
    (BitVec.ofNat 16 nnn.toNat).toNat = nnn.toNat ∧ nnn.toNat ≤ 0xFFF

/-- O29. R191 and R192; the wrap, the base 0x050 and the unmasked digit are the spec's decisions D17, D4 and D18 (logs 19, 5, 10). -/
def Obligations.IndexAddAndGlyphAddress : Prop :=
  ∀ (s : State) (x : Reg),
    decodeWord ironchip (0xF#4 ++ (BitVec.ofNat 4 x.val ++ 0x1E#8) : Word) = some (.addIV x) ∧
    decodeWord ironchip (0xF#4 ++ (BitVec.ofNat 4 x.val ++ 0x29#8) : Word) = some (.ldFV x) ∧
    exec (.addIV x) s = .next { s with I := BitVec.ofNat 16 ((s.I.toNat + s.V[x].toNat) % 65536), PC := s.PC + 2 } ∧
    exec (.ldFV x) s = .next { s with I := BitVec.ofNat 16 (0x050 + 5 * s.V[x].toNat), PC := s.PC + 2 } ∧
    (∀ c : Config, executePhase c (.ldFV x) s = .ok { s with
      I := BitVec.ofNat 16 (c.fontBase.toNat + 5 * (if c.fx29Mask = true then s.V[x].toNat % 16 else s.V[x].toNat)) })

/-- O30. R196; the range condition is the spec's decision D8 (log 13). -/
def Obligations.BcdStoresThreeDigits : Prop :=
  ∀ (s : State) (x : Reg),
    decodeWord ironchip (0xF#4 ++ (BitVec.ofNat 4 x.val ++ 0x33#8) : Word) = some (.ldBV x) ∧
    (s.I.toNat + 2 ≤ 0xFFF → ∃ t : State, exec (.ldBV x) s = .next t ∧ t = { s with M := t.M, PC := s.PC + 2 } ∧
      (t.M.read s.I.toNat).toNat = s.V[x].toNat / 100 ∧
      (t.M.read (s.I.toNat + 1)).toNat = s.V[x].toNat / 10 % 10 ∧
      (t.M.read (s.I.toNat + 2)).toNat = s.V[x].toNat % 10 ∧
      ∀ a : Nat, a = dataAddr s 0 → ∀ b : Nat, b < a ∨ a + 3 ≤ b → t.M.read b = s.M.read b)

/-- O31. R197; the range condition and the unchanged I are the spec's decisions D8 and D16 (logs 13 and 18). -/
def Obligations.BulkStoreWritesV0ToVx : Prop :=
  ∀ (s : State) (x : Reg),
    decodeWord ironchip (0xF#4 ++ (BitVec.ofNat 4 x.val ++ 0x55#8) : Word) = some (.ldMV x) ∧
    (s.I.toNat + x.val ≤ 0xFFF → ∃ t : State, exec (.ldMV x) s = .next t ∧ t = { s with M := t.M, PC := s.PC + 2 } ∧
      (∀ i : Reg, i ≤ x → t.M.read (s.I.toNat + i.val) = s.V[i]) ∧
      ∀ a : Nat, a = dataAddr s 0 → ∀ b : Nat, b < a ∨ a + (x.val + 1) ≤ b → t.M.read b = s.M.read b)

/-- O32. R198; the range condition and the unchanged I are the spec's decisions D8 and D16 (logs 13 and 18). -/
def Obligations.BulkLoadReadsV0ToVx : Prop :=
  ∀ (s : State) (x : Reg),
    decodeWord ironchip (0xF#4 ++ (BitVec.ofNat 4 x.val ++ 0x65#8) : Word) = some (.ldVM x) ∧
    (s.I.toNat + x.val ≤ 0xFFF → ∃ t : State, exec (.ldVM x) s = .next t ∧ t = { s with V := t.V, PC := s.PC + 2 } ∧
      (∀ i : Reg, i ≤ x → t.V[i] = s.M.read (s.I.toNat + i.val)) ∧ (∀ i : Reg, x < i → t.V[i] = s.V[i]))

/-- O33. The round trip R198 quotes from the source; the unchanged I is the spec's decision D16, the range check its D8 (logs 18 and 13). -/
def Obligations.StoreThenLoadRestoresTheRegisters : Prop :=
  ∀ (s t : State) (x : Reg) (W : Vector Byte 16), exec (.ldMV x) s = .next t →
    ∃ u : State, exec (.ldVM x) { t with V := W } = .next u ∧
      (∀ i : Reg, i ≤ x → u.V[i] = s.V[i]) ∧ (∀ i : Reg, x < i → u.V[i] = W[i]) ∧ u.M = t.M

/-- O34. R64 with the byte order of R56. -/
def Obligations.StoredBytesAreFetchedNext : Prop :=
  ∀ (s t u : State) (x : Reg), exec (.ldMV x) s = .next t → 1 ≤ x.val → u.M = t.M → u.PC = s.I →
    fetch u = .ok (s.V[(0 : Fin 16)] ++ s.V[(1 : Fin 16)] : Word)

/-- O35. R210; that only the full word 0x00E0 is CLS is the spec's decision D13 (log 7). -/
def Obligations.ClearScreenDarkensEveryPixel : Prop :=
  ∀ s : State,
    decodeWord ironchip (0x00E0 : Word) = some .cls ∧
    ∃ t : State, exec .cls s = .next t ∧ (∀ (y : Fin 32) (x : Fin 64), t.FB[y][x] = false) ∧
      t = { s with FB := t.FB, PC := s.PC + 2 }

/-- O36. R211 and R212; sampling, bit order and the check of clipped rows are the spec's decision D19 and the range its D8 (logs 20 and 13). -/
def Obligations.DrawIsClippedXorWithCollision : Prop :=
  ∀ (s : State) (x y : Reg) (n : Nat),
    (n < 16 →
      decodeWord ironchip (0xD#4 ++ (BitVec.ofNat 4 x.val ++ (BitVec.ofNat 4 y.val ++ BitVec.ofNat 4 n)) : Word) =
        some (.drw x y n)) ∧
    (n = 0 ∨ s.I.toNat + (n - 1) ≤ 0xFFF →
      ∀ covered : Fin 32 → Fin 64 → Prop,
        (∀ py px, covered py px ↔
          s.V[y].toNat % 32 ≤ py.val ∧ py.val < s.V[y].toNat % 32 + n ∧
          s.V[x].toNat % 64 ≤ px.val ∧ px.val < s.V[x].toNat % 64 + 8 ∧
          (s.M.read (s.I.toNat + (py.val - s.V[y].toNat % 32))).getLsbD (7 - (px.val - s.V[x].toNat % 64)) = true) →
        ∃ t : State, exec (.drw x y n) s = .next t ∧
          (∀ py px, covered py px → t.FB[py][px] = !s.FB[py][px]) ∧
          (∀ py px, ¬ covered py px → t.FB[py][px] = s.FB[py][px]) ∧
          ((∃ py px, covered py px ∧ s.FB[py][px] = true) → t.V = s.V.set 15 1) ∧
          ((∀ py px, covered py px → s.FB[py][px] = false) → t.V = s.V.set 15 0) ∧
          t = { s with FB := t.FB, V := t.V, PC := s.PC + 2 })

/-- O37. The property R212 quotes from the source; that every row's address is checked is the spec's decision D8 and D19, its sampling order D19 (logs 13 and 20). -/
def Obligations.DrawingTwiceRestoresTheScreen : Prop :=
  ∀ (s t : State) (x y p q : Reg) (n : Nat), exec (.drw x y n) s = .next t →
    t.V[p].toNat % 64 = s.V[x].toNat % 64 → t.V[q].toNat % 32 = s.V[y].toNat % 32 →
    ∃ u : State, exec (.drw p q n) t = .next u ∧ u.FB = s.FB ∧
      ((∀ (j : Fin 32) (i : Fin 64), s.FB[j][i] = false) →
        t.V[(15 : Fin 16)] = 0 ∧
        ((∃ (j : Fin 32) (i : Fin 64), t.FB[j][i] = true) → u.V[(15 : Fin 16)] = 1) ∧
        ((∀ (j : Fin 32) (i : Fin 64), t.FB[j][i] = false) → u.V[(15 : Fin 16)] = 0))

/-- O38. R232 and R233: DT changes only by Fx15 and by the tick of a FRAME. -/
def Obligations.DelayTimerMoves : Prop :=
  ∀ (s : State) (x : Reg),
    decodeWord ironchip (0xF#4 ++ (BitVec.ofNat 4 x.val ++ 0x07#8) : Word) = some (.ldVDT x) ∧
    decodeWord ironchip (0xF#4 ++ (BitVec.ofNat 4 x.val ++ 0x15#8) : Word) = some (.ldDTV x) ∧
    exec (.ldVDT x) s = .next { s with V := s.V.set x s.DT, PC := s.PC + 2 } ∧
    exec (.ldDTV x) s = .next { s with DT := s.V[x], PC := s.PC + 2 } ∧
    (∀ (i : Instr) (t : State), exec i s = .next t → (∀ z, i ≠ .ldDTV z) → t.DT = s.DT) ∧
    (tick { s with DT := s.V[x], PC := s.PC + 2 }).DT.toNat = s.V[x].toNat - 1

/-- O39. R234 and R32. The last clause at RND holds because the model draws by the count alone: that two states with the same count draw the same byte is the model's form of the free value (logs 2 and 3), no claim about the hardware. -/
def Obligations.SoundTimerIsWrittenAndNeverRead : Prop :=
  ∀ (s : State) (x : Reg),
    decodeWord ironchip (0xF#4 ++ (BitVec.ofNat 4 x.val ++ 0x18#8) : Word) = some (.ldSTV x) ∧
    exec (.ldSTV x) s = .next { s with ST := s.V[x], PC := s.PC + 2 } ∧
    (State.buzzer { s with ST := s.V[x], PC := s.PC + 2 } = true ↔ s.V[x] ≠ 0) ∧
    (s.V[x] = 1 → (tick { s with ST := s.V[x], PC := s.PC + 2 }).buzzer = false) ∧
    ∀ (i : Instr) (w : Byte),
      (∀ t : State, exec i s = .next t →
        ∃ u : State, exec i { s with ST := w } = .next u ∧ u = { t with ST := u.ST } ∧ (u.ST = w ∨ u.ST = t.ST)) ∧
      (∀ e : Fault, exec i s = .fault e → exec i { s with ST := w } = .fault e)

/-- O40. R236. -/
def Obligations.KeyWaitRepeatsOrTakesTheLowestKey : Prop :=
  ∀ (s : State) (x : Reg),
    decodeWord ironchip (0xF#4 ++ (BitVec.ofNat 4 x.val ++ 0x0A#8) : Word) = some (.ldVK x) ∧
    ((∀ k : Fin 16, s.K[k] = false) → exec (.ldVK x) s = .next s) ∧
    (∀ k : Fin 16, s.K[k] = true → (∀ j : Fin 16, j < k → s.K[j] = false) →
      exec (.ldVK x) s = .next { s with V := s.V.set x (BitVec.ofNat 8 k.val), PC := s.PC + 2 })

/-- O41. The writes column of R24. -/
def Obligations.RegistersOutsideTheWriterTableAreKept : Prop :=
  ∀ (i : Instr) (s t : State) (r : Reg), exec i s = .next t → ¬ MayWriteReg i r → t.V[r] = s.V[r]

/-- O42. R51's table of accesses; the address is the one the meanings use; a store that would pass 0xFFF does not complete (D8, log 13). -/
def Obligations.MemoryIsWrittenOnlyByBcdAndBulkStore : Prop :=
  ∀ (i : Instr) (s t : State) (b : Nat), exec i s = .next t →
    (∀ x : Reg, i = .ldBV x → ∀ a : Nat, a = dataAddr s 0 → b < a ∨ a + 3 ≤ b) →
    (∀ x : Reg, i = .ldMV x → ∀ a : Nat, a = dataAddr s 0 → b < a ∨ a + (x.val + 1) ≤ b) →
    t.M.read b = s.M.read b

/-- O43. R106; the two timers are moved by their own instructions alone. -/
def Obligations.StepsKeepKeysTimersAndUnnamedSlots : Prop :=
  (∀ s t : State, step s = .next t → ∃ i : Instr, exec i s = .next t) ∧
  ∀ (i : Instr) (s t : State), exec i s = .next t →
    t.K = s.K ∧
    (t.DT = s.DT ∨ ∃ x, i = .ldDTV x ∧ t.DT = s.V[x]) ∧
    (t.ST = s.ST ∨ ∃ x, i = .ldSTV x ∧ t.ST = s.V[x]) ∧
    (∀ j : Fin 16, t.S[j] = s.S[j] ∨ ∃ nnn, i = .call nnn ∧ j.val = s.SP.val + 1 ∧ t.S[j] = s.PC)

/-- O44. The writers R29, R30 and R35 name; that Fx55 and Fx65 leave I as it was is the spec's decision D16, which R193 carries (log 18); rndTaken is the model's own field (log 3). -/
def Obligations.IndexStackPointerAndScreenWriters : Prop :=
  ∀ (i : Instr) (s t : State), exec i s = .next t →
    (t.I = s.I ∨ (∃ nnn, i = .ldI nnn) ∨ (∃ x, i = .addIV x) ∨ ∃ x, i = .ldFV x) ∧
    (t.SP = s.SP ∨ (∃ nnn, i = .call nnn) ∨ i = .ret) ∧
    (t.FB = s.FB ∨ i = .cls ∨ ∃ x y n, i = .drw x y n) ∧
    (t.rndTaken = s.rndTaken ∨ ∃ x kk, i = .rnd x kk)

/-- O45. R26; the unmasked sum of JP V0 is the spec's decision D27, the transfers to targets below 2 its D26 (logs 24 and 23). -/
def Obligations.ProgramCounterAfterEachInstruction : Prop :=
  ∀ (i : Instr) (s t : State), exec i s = .next t → t.PC =
    match i with
    | .jp nnn => BitVec.ofNat 16 nnn.toNat
    | .call nnn => BitVec.ofNat 16 nnn.toNat
    | .jpV0 nnn => BitVec.ofNat 16 (nnn.toNat + s.V[(0 : Fin 16)].toNat)
    | .ret => s.S[s.SP] + 2
    | .seVB x kk => if s.V[x] = kk then s.PC + 4 else s.PC + 2
    | .sneVB x kk => if s.V[x] ≠ kk then s.PC + 4 else s.PC + 2
    | .seVV x y => if s.V[x] = s.V[y] then s.PC + 4 else s.PC + 2
    | .sneVV x y => if s.V[x] ≠ s.V[y] then s.PC + 4 else s.PC + 2
    | .skp x => if ∃ k : Fin 16, k.val = s.V[x].toNat ∧ s.K[k] = true then s.PC + 4 else s.PC + 2
    | .sknp x => if ∃ k : Fin 16, k.val = s.V[x].toNat ∧ s.K[k] = true then s.PC + 2 else s.PC + 4
    | .ldVK _ => if ∀ k : Fin 16, s.K[k] = false then s.PC else s.PC + 2
    | _ => s.PC + 2

/-- O46. The zeros of reset are the spec's decision D3 (log 1); the canonical form is the model's own (log 4). -/
def Obligations.ResetSatisfiesTheInvariant : Prop :=
  Inv State.reset

/-- O47. R104's bound on targets, R28, and the canonical form of memory, which is the model's own (log 4). The bound 0x10FE rests on the unmasked Bnnn (D27, log 24), that of the slots on the fetch bound (D6, log 11). -/
def Obligations.StepKeepsTheInvariant : Prop :=
  ∀ s t : State, Inv s → step s = .next t → Inv t

/-- O48. The debug setters' checks (R133, decision D22, log 22) are what keeps PC and the slots in range here; the canonical form and the bounds are as in O47 (logs 4, 11, 24). -/
def Obligations.EveryCommandKeepsTheInvariant : Prop :=
  ∀ (c : Command) (s t : State) (r : Result), Inv s → command c s = .done t r → Inv t

/-- O49. Runs load programs through LOAD_ROM, so this ranges over every program. Reset's zero slots are decision D3 (log 1); the invariant is the model's (logs 4, 22, 24). -/
def Obligations.ReachableStatesSatisfyTheInvariant : Prop :=
  ∀ (cs : List Command) (s : State), runCommands cs State.reset = some s → Inv s

/-- O50. R121 over runs of steps, with the tick of R120 (DT - 1 on naturals is 0 at 0). That any n is allowed is the spec's decision D25 (log 36), that the failing step itself changes nothing its D12 (log 17). -/
def Obligations.FrameTicksOnceAndRunsUpToNSteps : Prop :=
  ∀ (n : Nat) (s t : State),
    (frame n s = .ok t ↔ ∃ ws : List Word,
      StepsTo ws { s with DT := BitVec.ofNat 8 (s.DT.toNat - 1), ST := BitVec.ofNat 8 (s.ST.toNat - 1) } t ∧
      ws.length ≤ n ∧ (∀ w ∈ ws.dropLast, w &&& 0xF000 ≠ 0xD000) ∧
      (ws.length = n ∨ ∃ w, ws.getLast? = some w ∧ w &&& 0xF000 = 0xD000)) ∧
    (∀ e : Fault, frame n s = .err e t ↔ ∃ ws : List Word,
      StepsTo ws { s with DT := BitVec.ofNat 8 (s.DT.toNat - 1), ST := BitVec.ofNat 8 (s.ST.toNat - 1) } t ∧
      ws.length < n ∧ (∀ w ∈ ws, w &&& 0xF000 ≠ 0xD000) ∧ stepResult t = .err e)

/-- O51. R122. -/
def Obligations.BlockedKeyWaitUsesTheWholeFrame : Prop :=
  ∀ (s : State) (x : Reg) (n : Nat) (op : Word), s.PC.toNat ≤ 0xFFE →
    op = (0xF#4 ++ (BitVec.ofNat 4 x.val ++ 0x0A#8) : Word) →
    (s.M.read s.PC.toNat ++ s.M.read (s.PC.toNat + 1) : Word) = op → (∀ k : Fin 16, s.K[k] = false) →
    stepResult s = .ok op s ∧ StepsTo (List.replicate n op) (tick s) (tick s) ∧ frame n s = .ok (tick s)

/-- O52. R128 (decision D32; log 32). -/
def Obligations.LoadRomCopiesAndKeepsTheRest : Prop :=
  ∀ (s : State) (b : List Byte),
    (b.length ≤ 0xE00 → ∃ t : State, command (.loadRom b) s = .done t .ok ∧ t = { s with M := t.M } ∧
      (∀ (i : Nat) (h : i < b.length), t.M.read (0x200 + i) = b[i]) ∧
      (∀ a : Nat, a < 0x200 ∨ 0x200 + b.length ≤ a → t.M.read a = s.M.read a)) ∧
    (b.length > 0xE00 → command (.loadRom b) s = .done s (.err (.romTooBig b.length)))

/-- O53. R130 and R258; the refusal is the spec's decision D21 (log 21). -/
def Obligations.KeyEventsSetOneKey : Prop :=
  ∀ (s : State) (k : Nat),
    (∀ h : k < 16, command (.keyDown k) s = .done { s with K := s.K.set k true h } .nothing ∧
      command (.keyUp k) s = .done { s with K := s.K.set k false h } .nothing) ∧
    (k > 15 → command (.keyDown k) s = .refused (.keyOutsideContract k) ∧
      command (.keyUp k) s = .refused (.keyOutsideContract k))

/-- O54. R133 and R134 (decisions D22 and D23; log 22). -/
def Obligations.DebugSetWritesExactlyItsField : Prop :=
  ∀ (w : DbgWrite) (s t : State), dbgSet w s = .ok t →
    dbgGet w.field t = .ok w.value ∧ ∀ f : DbgField, f ≠ w.field → dbgGet f t = dbgGet f s

/-- O55. R133's table (decision D22, log 22). -/
def Obligations.DebugErrorsFollowTheFieldTable : Prop :=
  ∀ (s : State) (a : Nat) (v : Byte) (w : Word) (b : Bool) (x y : Nat),
    (a > 0xFFF → dbgGet (.mem a) s = .error (.addrOutOfBounds a) ∧ dbgSet (.mem a v) s = .error (.addrOutOfBounds a)) ∧
    (a > 15 → dbgGet (.reg a) s = .error (.noRegister a) ∧ dbgSet (.reg a v) s = .error (.noRegister a) ∧
      dbgGet (.slot a) s = .error (.stackAddrOutOfBounds a) ∧ dbgSet (.slot a w) s = .error (.stackAddrOutOfBounds a) ∧
      dbgGet (.key a) s = .error (.keyOutOfBounds a) ∧ dbgSet (.key a b) s = .error (.keyOutOfBounds a) ∧
      dbgSet (.sp a) s = .error (.spOutOfBounds a)) ∧
    (x > 63 ∨ y > 31 → dbgGet (.pixel x y) s = .error (.noPixel x y) ∧ dbgSet (.pixel x y b) s = .error (.noPixel x y)) ∧
    (w.toNat > 0xFFF → dbgSet (.index w) s = .error (.indexTooBig w.toNat) ∧
      dbgSet (.pc w) s = .error (.pcOutOfBounds w) ∧
      (a ≤ 15 → dbgSet (.slot a w) s = .error (.stackAddrOutOfBounds w.toNat)))

/-- O56. The last sentence of R250; the numbers are the spec's labels (D2, log 30), the errors of its own decisions D8, D9 and D22 among them (logs 13, 14, 22). -/
def Obligations.ErrorCodesByCommand : Prop :=
  ∀ (c : Command) (s t : State) (e : Fault), command c s = .done t (.err e) →
    match c with
    | .step => e.code ∈ [1, 2, 3, 4, 5]
    | .frame _ => e.code ∈ [1, 2, 3, 4, 5]
    | .loadRom _ => e.code = 6
    | .dbgGet _ => e.code ∈ [1, 3, 5, 7, 8, 9, 10, 11]
    | .dbgSet _ => e.code ∈ [1, 3, 5, 7, 8, 9, 10, 11]
    | .reset => False
    | .keyDown _ => False
    | .keyUp _ => False

/-- O57. R39 and R129; the zeros are the spec's decision D3 and the font's place D4 (logs 1 and 5); rndTaken is the model's own (log 3). -/
def Obligations.ResetState : Prop :=
  State.reset.PC = 0x200 ∧
  (∀ (i : Nat) (h : i < 80), State.reset.M.read (0x050 + i) = ironchip.fontRom[i]) ∧
  (∀ a : Nat, a < 0x050 ∨ 0x0A0 ≤ a → State.reset.M.read a = 0) ∧
  (∀ r : Fin 16, State.reset.V[r] = 0 ∧ State.reset.S[r] = 0 ∧ State.reset.K[r] = false) ∧
  State.reset.I = 0 ∧ State.reset.SP.val = 0 ∧ State.reset.DT = 0 ∧ State.reset.ST = 0 ∧
  (∀ (y : Fin 32) (x : Fin 64), State.reset.FB[y][x] = false) ∧
  (∀ s : State, command .reset s = .done { State.reset with rndTaken := s.rndTaken } .ok ∧
    command .reset { State.reset with rndTaken := s.rndTaken } =
      .done { State.reset with rndTaken := s.rndTaken } .ok)

/-- O58. R39 with the parameters of R8 (decisions D4 and D5; logs 5 and 6). The zeros outside the font are the spec's decision D3 (log 1); the canonical form is the model's own (log 4). -/
def Obligations.ResetUnderEveryFontParameter : Prop :=
  (∀ c : Config, c.Ok → (resetUnder c).M.wf ∧
    (∀ (i : Nat) (h : i < 80), (resetUnder c).M.read (c.fontBase.toNat + i) = c.fontRom[i]) ∧
    (∀ a : Nat, a ≤ 0xFFF → a < c.fontBase.toNat ∨ c.fontBase.toNat + 80 ≤ a → (resetUnder c).M.read a = 0)) ∧
  resetUnder ironchip = State.reset

/-- O59. R8 (the defaults: logs 5 to 10). EXECUTE reads FLAG_LAST (D15), FX29_MASK (D18) and FONT_BASE (D4). -/
def Obligations.ParameterisedMachineAgreesAtTheDefaults : Prop :=
  (∀ s : State, stepUnder ironchip s = stepResult s) ∧ (∀ (n : Nat) (s : State), frameUnder ironchip n s = frame n s) ∧
  (∀ (c : Config) (i : Instr) (s : State), executePhase c i s ≠ executePhase ironchip i s →
    (∃ x y, i = .addVV x y ∨ i = .sub x y ∨ i = .subn x y ∨ i = .shr x y ∨ i = .shl x y) ∨ ∃ x, i = .ldFV x)

/-- O60. R32, R35 and R92 (row-major is decision D24, log 31). -/
def Obligations.OutputsFollowTheState : Prop :=
  ∀ s : State, (s.buzzer = true ↔ s.ST.toNat ≠ 0) ∧
    ∀ (y : Fin 32) (x : Fin 64) (i : Fin 2048), i.val = y.val * 64 + x.val → s.fbView i = s.FB[y][x]
end

