-- ==== Sys2Proof/Laws/Decode.lean ====
section
/-! SUPPORT. The bits of each format, the fields read back from each format, the formats rebuilt from the fields, and the
words of each family: later proofs cite these and never unfold a bit slice. -/

namespace Sys2Proof

/-! ### The bits of the formats (R71) -/

theorem formatNNN_bit (h : BitVec 4) (nnn : BitVec 12) (i : Nat) :
    (formatNNN h nnn).getLsbD i = if i < 12 then nnn.getLsbD i else h.getLsbD (i - 12) :=
  BitVec.getLsbD_append

theorem formatXKK_bit (h : BitVec 4) (x : Reg) (kk : Byte) (i : Nat) :
    (formatXKK h x kk).getLsbD i =
      if i < 8 then kk.getLsbD i else if i < 12 then (BitVec.ofNat 4 x.val).getLsbD (i - 8) else h.getLsbD (i - 12) := by
  refine (BitVec.getLsbD_append (x := h) (y := BitVec.ofNat 4 x.val ++ kk) (i := i)).trans ?_
  rw [BitVec.getLsbD_append (x := BitVec.ofNat 4 x.val) (y := kk) (i := i)]
  split <;> split <;> simp_all
  omega

theorem formatXYS_bit (h : BitVec 4) (x y : Reg) (s : BitVec 4) (i : Nat) :
    (formatXYS h x y s).getLsbD i =
      if i < 4 then s.getLsbD i else if i < 8 then (BitVec.ofNat 4 y.val).getLsbD (i - 4)
      else if i < 12 then (BitVec.ofNat 4 x.val).getLsbD (i - 8) else h.getLsbD (i - 12) := by
  refine (BitVec.getLsbD_append (x := h) (y := BitVec.ofNat 4 x.val ++ (BitVec.ofNat 4 y.val ++ s)) (i := i)).trans ?_
  rw [BitVec.getLsbD_append (x := BitVec.ofNat 4 x.val) (y := BitVec.ofNat 4 y.val ++ s) (i := i),
    BitVec.getLsbD_append (x := BitVec.ofNat 4 y.val) (y := s) (i := i)]
  by_cases h4 : i < 4
  · simp [h4, show i < 8 by omega, show i < 12 by omega]
  · by_cases h8 : i < 8
    · simp [h4, h8, show i < 12 by omega]
    · by_cases h12 : i < 12
      · simp [h4, h8, h12]
      · simp [h4, h8, h12]

theorem wordOfBytes_bit (hi lo : Byte) (i : Nat) :
    (wordOfBytes hi lo).getLsbD i = if i < 8 then lo.getLsbD i else hi.getLsbD (i - 8) :=
  BitVec.getLsbD_append

/-- A register number read from four bits equal to its own. -/
theorem reg_of_bits {b : BitVec 4} {x : Reg} (h : b = BitVec.ofNat 4 x.val) : (⟨b.toNat, b.isLt⟩ : Reg) = x := by
  apply Fin.ext
  subst h
  simp

/-! ### Fields of the formats -/

@[simp] theorem opH_formatNNN (h : BitVec 4) (nnn : BitVec 12) : opH (formatNNN h nnn) = h := by
  apply BitVec.eq_of_getLsbD_eq
  intro i hi
  simp [opH, formatNNN_bit, hi]

@[simp] theorem opNNN_formatNNN (h : BitVec 4) (nnn : BitVec 12) : opNNN (formatNNN h nnn) = nnn := by
  apply BitVec.eq_of_getLsbD_eq
  intro i hi
  simp [opNNN, formatNNN_bit, hi]

@[simp] theorem opH_formatXKK (h : BitVec 4) (x : Reg) (kk : Byte) : opH (formatXKK h x kk) = h := by
  apply BitVec.eq_of_getLsbD_eq
  intro i hi
  simp [opH, formatXKK_bit, hi, show ¬ 12 + i < 8 by omega]

@[simp] theorem opKK_formatXKK (h : BitVec 4) (x : Reg) (kk : Byte) : opKK (formatXKK h x kk) = kk := by
  apply BitVec.eq_of_getLsbD_eq
  intro i hi
  simp [opKK, formatXKK_bit, hi]

@[simp] theorem opX_formatXKK (h : BitVec 4) (x : Reg) (kk : Byte) : opX (formatXKK h x kk) = x := by
  apply reg_of_bits
  apply BitVec.eq_of_getLsbD_eq
  intro i hi
  rw [BitVec.getLsbD_extractLsb', formatXKK_bit]
  simp [hi, show 8 + i < 12 by omega]

@[simp] theorem opH_formatXYS (h : BitVec 4) (x y : Reg) (s : BitVec 4) : opH (formatXYS h x y s) = h := by
  apply BitVec.eq_of_getLsbD_eq
  intro i hi
  simp [opH, formatXYS_bit, hi, show ¬ 12 + i < 8 by omega, show ¬ 12 + i < 4 by omega]

@[simp] theorem opS_formatXYS (h : BitVec 4) (x y : Reg) (s : BitVec 4) : opS (formatXYS h x y s) = s := by
  apply BitVec.eq_of_getLsbD_eq
  intro i hi
  simp [opS, formatXYS_bit, hi]

@[simp] theorem opX_formatXYS (h : BitVec 4) (x y : Reg) (s : BitVec 4) : opX (formatXYS h x y s) = x := by
  apply reg_of_bits
  apply BitVec.eq_of_getLsbD_eq
  intro i hi
  rw [BitVec.getLsbD_extractLsb', formatXYS_bit]
  simp [hi, show 8 + i < 12 by omega, show ¬ 8 + i < 4 by omega]

@[simp] theorem opY_formatXYS (h : BitVec 4) (x y : Reg) (s : BitVec 4) : opY (formatXYS h x y s) = y := by
  apply reg_of_bits
  apply BitVec.eq_of_getLsbD_eq
  intro i hi
  rw [BitVec.getLsbD_extractLsb', formatXYS_bit]
  simp [hi, show 4 + i < 8 by omega]

/-! ### Words rebuilt from their fields -/

theorem formatNNN_fields (op : Word) : formatNNN (opH op) (opNNN op) = op := by
  apply BitVec.eq_of_getLsbD_eq
  intro i hi
  simp only [opH, opNNN, formatNNN_bit, BitVec.getLsbD_extractLsb']
  split
  · simp_all
  · rw [show 12 + (i - 12) = i by omega]
    simp [show i - 12 < 4 by omega]

theorem ofNat_opX (op : Word) : BitVec.ofNat 4 (opX op).val = op.extractLsb' 8 4 := by
  show BitVec.ofNat 4 (op.extractLsb' 8 4).toNat = _
  rw [BitVec.ofNat_toNat, BitVec.setWidth_eq]

theorem ofNat_opY (op : Word) : BitVec.ofNat 4 (opY op).val = op.extractLsb' 4 4 := by
  show BitVec.ofNat 4 (op.extractLsb' 4 4).toNat = _
  rw [BitVec.ofNat_toNat, BitVec.setWidth_eq]

theorem formatXKK_fields (op : Word) : formatXKK (opH op) (opX op) (opKK op) = op := by
  apply BitVec.eq_of_getLsbD_eq
  intro i hi
  simp only [formatXKK_bit, ofNat_opX, opH, opKK, BitVec.getLsbD_extractLsb']
  split
  · simp_all
  · split
    · rw [show 8 + (i - 8) = i by omega]
      simp [show i - 8 < 4 by omega]
    · rw [show 12 + (i - 12) = i by omega]
      simp [show i - 12 < 4 by omega]

theorem formatXYS_fields (op : Word) : formatXYS (opH op) (opX op) (opY op) (opS op) = op := by
  apply BitVec.eq_of_getLsbD_eq
  intro i hi
  simp only [formatXYS_bit, ofNat_opX, ofNat_opY, opH, opS, BitVec.getLsbD_extractLsb']
  split
  · simp_all
  · split
    · rw [show 4 + (i - 4) = i by omega]
      simp [show i - 4 < 4 by omega]
    · split
      · rw [show 8 + (i - 8) = i by omega]
        simp [show i - 8 < 4 by omega]
      · rw [show 12 + (i - 12) = i by omega]
        simp [show i - 12 < 4 by omega]

/-! ### Bytes -/

/-- The two bytes of a word give the word back (R56). -/
@[simp] theorem wordOfBytes_bytesOfWord (op : Word) : wordOfBytes (op.extractLsb' 8 8) (op.extractLsb' 0 8) = op := by
  apply BitVec.eq_of_getLsbD_eq
  intro i hi
  simp only [wordOfBytes_bit, BitVec.getLsbD_extractLsb']
  split
  · simp_all
  · rw [show 8 + (i - 8) = i by omega]
    simp [show i - 8 < 8 by omega]

/-- Decoding the bytes of a word is decoding the word. -/
theorem decode_bytesOfWord (c : Config) (op : Word) (rest : List Byte) :
    decode c (bytesOfWord op ++ rest) =
      match decodeWord c op with
      | some i => .ok (i, rest)
      | none => .error (.unrecognized op) := by
  have h : decode c (bytesOfWord op ++ rest) =
      match decodeWord c (wordOfBytes (op.extractLsb' 8 8) (op.extractLsb' 0 8)) with
      | some i => .ok (i, rest)
      | none => .error (.unrecognized (wordOfBytes (op.extractLsb' 8 8) (op.extractLsb' 0 8))) := by rfl
  rw [h]
  generalize hw : wordOfBytes (op.extractLsb' 8 8) (op.extractLsb' 0 8) = w
  obtain rfl : w = op := by rw [← hw, wordOfBytes_bytesOfWord]
  cases decodeWord c w <;> rfl

end Sys2Proof
end

