-- ==== Sys2Proof/Laws/Memory.lean ====
section
/-! SUPPORT. The laws of memory: read after write, and that every operation keeps the canonical form. -/

namespace Sys2Proof.Machine.Memory

/-! ### Reading -/

@[simp] theorem read_nil (a : Nat) : Memory.read [] a = unlisted a := rfl

theorem read_cons (k : Nat) (b : Byte) (m : Memory) (a : Nat) :
    Memory.read ((k, b) :: m) a = if k = a then b else Memory.read m a := rfl

theorem read_unlist (m : Memory) (a c : Nat) :
    (m.unlist a).read c = if c = a then unlisted a else m.read c := by
  induction m with
  | nil => simp [unlist]; rintro rfl; rfl
  | cons e m ih =>
    obtain ⟨k, b⟩ := e
    simp only [unlist] at ih ⊢
    by_cases hk : k = a
    · subst hk
      simp only [bne_self_eq_false, Bool.false_eq_true, not_false_eq_true, List.filter_cons_of_neg, ih, read_cons]
      by_cases hc : c = k
      · simp [hc]
      · rw [if_neg hc, if_neg hc, if_neg (Ne.symm hc)]
    · rw [List.filter_cons_of_pos (by simpa using hk), read_cons, read_cons, ih]
      split <;> split <;> simp_all

theorem read_enter (a : Nat) (b : Byte) (m : Memory) (hm : ∀ e ∈ m, e.1 ≠ a) (c : Nat) :
    (enter a b m).read c = if c = a then b else m.read c := by
  induction m with
  | nil => simp [enter, read_cons, eq_comm]
  | cons e m ih =>
    obtain ⟨k, v⟩ := e
    have hk : k ≠ a := hm (k, v) (by simp)
    have ih := ih (fun e he => hm e (List.mem_cons_of_mem _ he))
    simp only [enter]
    split
    · simp only [read_cons, eq_comm]
    · rw [read_cons, read_cons, ih]
      split <;> split <;> simp_all

theorem unlist_ne (m : Memory) (a : Nat) : ∀ e ∈ m.unlist a, e.1 ≠ a := by
  intro e he
  simpa [unlist] using (List.mem_filter.mp he).2

/-- Read after write, at the same address and at every other; an address above 0xFFF is not written. -/
theorem read_write (m : Memory) (a : Nat) (b : Byte) (c : Nat) :
    (m.write a b).read c = if c = a ∧ a ≤ 0xFFF then b else m.read c := by
  unfold write
  split
  · rw [if_neg (by omega)]
  · split
    · rename_i h hb
      rw [read_unlist]
      split
      · rw [if_pos (by omega), hb]
      · rw [if_neg (by omega)]
    · rw [read_enter a b _ (unlist_ne m a), read_unlist]
      split
      · rw [if_pos (by omega)]
      · rw [if_neg (by omega)]

theorem read_write_self (m : Memory) {a : Nat} (b : Byte) (ha : a ≤ 0xFFF) : (m.write a b).read a = b := by
  rw [read_write, if_pos ⟨rfl, ha⟩]

theorem read_write_ne (m : Memory) {a c : Nat} (b : Byte) (h : c ≠ a) : (m.write a b).read c = m.read c := by
  rw [read_write, if_neg (by omega)]

/-- Reading after a run of writes that stays inside the 4096 bytes. -/
theorem read_writeAll (bs : List Byte) (m : Memory) (base : Nat) (h : base + bs.length ≤ 0x1000) (c : Nat) :
    (m.writeAll base bs).read c =
      if hc : base ≤ c ∧ c < base + bs.length then bs[c - base]'(by omega) else m.read c := by
  induction bs generalizing m base with
  | nil => simp [writeAll]
  | cons b bs ih =>
    simp only [List.length_cons] at h
    rw [writeAll, ih (m.write base b) (base + 1) (by omega)]
    by_cases hb : c = base
    · subst hb
      rw [dif_neg (by omega), dif_pos (by simp), read_write_self _ _ (by omega)]
      simp
    · by_cases hc : base + 1 ≤ c ∧ c < base + 1 + bs.length
      · rw [dif_pos hc, dif_pos (by simp; omega)]
        have : c - base = (c - (base + 1)) + 1 := by omega
        simp only [this, List.getElem_cons_succ]
      · rw [dif_neg hc, dif_neg (by simp; omega), read_write_ne _ _ hb]

/-- A run of writes leaves every byte outside it alone, wherever the run lies. -/
theorem read_writeAll_outside (bs : List Byte) (m : Memory) (base c : Nat) (h : c < base ∨ base + bs.length ≤ c) :
    (m.writeAll base bs).read c = m.read c := by
  induction bs generalizing m base with
  | nil => rfl
  | cons b bs ih =>
    simp only [List.length_cons] at h
    rw [writeAll, ih _ _ (by omega), read_write_ne _ _ (by omega)]

/-! ### The canonical form -/

theorem wf_nil : wf [] := ⟨List.Pairwise.nil, by simp⟩

theorem wf_unlist {m : Memory} (hm : m.wf) (a : Nat) : (m.unlist a).wf := by
  refine ⟨hm.1.filter _, fun e he => hm.2 e (List.mem_filter.mp he).1⟩

theorem mem_enter {a : Nat} {b : Byte} {m : Memory} {e : Host.Cell} :
    e ∈ enter a b m ↔ e = (a, b) ∨ e ∈ m := by
  induction m with
  | nil => simp [enter]
  | cons f m ih =>
    obtain ⟨k, v⟩ := f
    simp only [enter]
    split
    · simp
    · simp only [List.mem_cons, ih]; tauto

theorem wf_enter {m : Memory} (hm : m.wf) {a : Nat} {b : Byte} (ha : a ≤ 0xFFF) (hb : b ≠ unlisted a)
    (hne : ∀ e ∈ m, e.1 ≠ a) : wf (enter a b m) := by
  refine ⟨?_, fun e he => ?_⟩
  · obtain ⟨hp, -⟩ := hm
    induction m with
    | nil => simp [enter]
    | cons f m ih =>
      obtain ⟨k, v⟩ := f
      have hk : k ≠ a := hne (k, v) (by simp)
      rw [List.pairwise_cons] at hp
      simp only [enter]
      split
      · rename_i hlt
        rw [List.pairwise_cons]
        refine ⟨fun e he => ?_, List.pairwise_cons.mpr hp⟩
        rcases List.mem_cons.mp he with rfl | he
        · exact hlt
        · exact Nat.lt_trans hlt (hp.1 e he)
      · rw [List.pairwise_cons]
        refine ⟨fun e he => ?_, ih (fun e he => hne e (List.mem_cons_of_mem _ he)) hp.2⟩
        rcases mem_enter.mp he with rfl | he
        · show k < a; omega
        · exact hp.1 e he
  · rcases mem_enter.mp he with rfl | he
    · exact ⟨ha, hb⟩
    · exact hm.2 e he

/-- A write keeps the canonical form. -/
theorem wf_write {m : Memory} (hm : m.wf) (a : Nat) (b : Byte) : (m.write a b).wf := by
  unfold write
  split
  · exact hm
  · split
    · exact wf_unlist hm a
    · rename_i h hb
      exact wf_enter (wf_unlist hm a) (by omega) hb (unlist_ne m a)

/-- A run of writes keeps the canonical form. -/
theorem wf_writeAll (bs : List Byte) {m : Memory} (hm : m.wf) (base : Nat) : (m.writeAll base bs).wf := by
  induction bs generalizing m base with
  | nil => exact hm
  | cons b bs ih => exact ih (wf_write hm base b) (base + 1)

/-- An address below every listed one reads as unlisted. -/
theorem read_below {m : Memory} {a : Nat} (h : ∀ e ∈ m, a < e.1) : m.read a = unlisted a := by
  induction m with
  | nil => rfl
  | cons e m ih =>
    obtain ⟨k, v⟩ := e
    have := h (k, v) (by simp)
    rw [read_cons, if_neg (by simp at this; omega), ih (fun e he => h e (List.mem_cons_of_mem _ he))]

/-- Canonical memories that read alike everywhere are the same list. -/
theorem eq_of_read_eq {m n : Memory} (hm : m.wf) (hn : n.wf) (h : ∀ a, m.read a = n.read a) : m = n := by
  induction m generalizing n with
  | nil =>
    cases n with
    | nil => rfl
    | cons f n =>
      obtain ⟨k, v⟩ := f
      have := h k
      rw [read_cons, if_pos rfl] at this
      exact absurd this.symm (hn.2 (k, v) (by simp)).2
  | cons e m ih =>
    obtain ⟨k, v⟩ := e
    have hm1 := List.pairwise_cons.mp hm.1
    have hv := (hm.2 (k, v) (by simp)).2
    cases n with
    | nil =>
      have := h k
      rw [read_cons, if_pos rfl] at this
      exact absurd this hv
    | cons f n =>
      obtain ⟨l, w⟩ := f
      have hn1 := List.pairwise_cons.mp hn.1
      have hw := (hn.2 (l, w) (by simp)).2
      have hkl : k = l := by
        rcases Nat.lt_trichotomy k l with hlt | heq | hgt
        · have := h k
          rw [read_cons, if_pos rfl, read_below] at this
          · exact absurd this hv
          · intro e he
            rcases List.mem_cons.mp he with rfl | he
            · exact hlt
            · exact Nat.lt_trans hlt (hn1.1 e he)
        · exact heq
        · have := h l
          rw [read_cons l w, if_pos rfl, read_below] at this
          · exact absurd this.symm hw
          · intro e he
            rcases List.mem_cons.mp he with rfl | he
            · exact hgt
            · exact Nat.lt_trans hgt (hm1.1 e he)
      subst hkl
      have hvw : v = w := by
        have := h k
        simpa [read_cons] using this
      subst hvw
      congr 1
      refine ih ⟨hm1.2, fun e he => hm.2 e (List.mem_cons_of_mem _ he)⟩
        ⟨hn1.2, fun e he => hn.2 e (List.mem_cons_of_mem _ he)⟩ (fun a => ?_)
      by_cases ha : k = a
      · subst ha
        rw [read_below hm1.1, read_below hn1.1]
      · have := h a
        simpa only [read_cons, if_neg ha] using this

end Sys2Proof.Machine.Memory
end

