-- ==== Sys2Proof/Laws/State.lean ====
section
/-! SUPPORT. One lemma per field of the state per update, and per accessor per update: later proofs unfold no record. -/

namespace Sys2Proof.Machine.State

variable (s : State)

@[simp] theorem setReg_V (r : Reg) (v : Byte) : (s.setReg r v).V = s.V.set r.val v r.isLt := rfl
@[simp] theorem setReg_I (r : Reg) (v : Byte) : (s.setReg r v).I = s.I := rfl
@[simp] theorem setReg_PC (r : Reg) (v : Byte) : (s.setReg r v).PC = s.PC := rfl
@[simp] theorem setReg_SP (r : Reg) (v : Byte) : (s.setReg r v).SP = s.SP := rfl
@[simp] theorem setReg_S (r : Reg) (v : Byte) : (s.setReg r v).S = s.S := rfl
@[simp] theorem setReg_DT (r : Reg) (v : Byte) : (s.setReg r v).DT = s.DT := rfl
@[simp] theorem setReg_ST (r : Reg) (v : Byte) : (s.setReg r v).ST = s.ST := rfl
@[simp] theorem setReg_K (r : Reg) (v : Byte) : (s.setReg r v).K = s.K := rfl
@[simp] theorem setReg_FB (r : Reg) (v : Byte) : (s.setReg r v).FB = s.FB := rfl
@[simp] theorem setReg_M (r : Reg) (v : Byte) : (s.setReg r v).M = s.M := rfl
@[simp] theorem setReg_rndTaken (r : Reg) (v : Byte) : (s.setReg r v).rndTaken = s.rndTaken := rfl

@[simp] theorem setI_V (v : Word) : (s.setI v).V = s.V := rfl
@[simp] theorem setI_I (v : Word) : (s.setI v).I = v := rfl
@[simp] theorem setI_PC (v : Word) : (s.setI v).PC = s.PC := rfl
@[simp] theorem setI_SP (v : Word) : (s.setI v).SP = s.SP := rfl
@[simp] theorem setI_S (v : Word) : (s.setI v).S = s.S := rfl
@[simp] theorem setI_DT (v : Word) : (s.setI v).DT = s.DT := rfl
@[simp] theorem setI_ST (v : Word) : (s.setI v).ST = s.ST := rfl
@[simp] theorem setI_K (v : Word) : (s.setI v).K = s.K := rfl
@[simp] theorem setI_FB (v : Word) : (s.setI v).FB = s.FB := rfl
@[simp] theorem setI_M (v : Word) : (s.setI v).M = s.M := rfl
@[simp] theorem setI_rndTaken (v : Word) : (s.setI v).rndTaken = s.rndTaken := rfl

@[simp] theorem setPC_V (v : Word) : (s.setPC v).V = s.V := rfl
@[simp] theorem setPC_I (v : Word) : (s.setPC v).I = s.I := rfl
@[simp] theorem setPC_PC (v : Word) : (s.setPC v).PC = v := rfl
@[simp] theorem setPC_SP (v : Word) : (s.setPC v).SP = s.SP := rfl
@[simp] theorem setPC_S (v : Word) : (s.setPC v).S = s.S := rfl
@[simp] theorem setPC_DT (v : Word) : (s.setPC v).DT = s.DT := rfl
@[simp] theorem setPC_ST (v : Word) : (s.setPC v).ST = s.ST := rfl
@[simp] theorem setPC_K (v : Word) : (s.setPC v).K = s.K := rfl
@[simp] theorem setPC_FB (v : Word) : (s.setPC v).FB = s.FB := rfl
@[simp] theorem setPC_M (v : Word) : (s.setPC v).M = s.M := rfl
@[simp] theorem setPC_rndTaken (v : Word) : (s.setPC v).rndTaken = s.rndTaken := rfl

@[simp] theorem setSP_V (v : Fin 16) : (s.setSP v).V = s.V := rfl
@[simp] theorem setSP_I (v : Fin 16) : (s.setSP v).I = s.I := rfl
@[simp] theorem setSP_PC (v : Fin 16) : (s.setSP v).PC = s.PC := rfl
@[simp] theorem setSP_SP (v : Fin 16) : (s.setSP v).SP = v := rfl
@[simp] theorem setSP_S (v : Fin 16) : (s.setSP v).S = s.S := rfl
@[simp] theorem setSP_DT (v : Fin 16) : (s.setSP v).DT = s.DT := rfl
@[simp] theorem setSP_ST (v : Fin 16) : (s.setSP v).ST = s.ST := rfl
@[simp] theorem setSP_K (v : Fin 16) : (s.setSP v).K = s.K := rfl
@[simp] theorem setSP_FB (v : Fin 16) : (s.setSP v).FB = s.FB := rfl
@[simp] theorem setSP_M (v : Fin 16) : (s.setSP v).M = s.M := rfl
@[simp] theorem setSP_rndTaken (v : Fin 16) : (s.setSP v).rndTaken = s.rndTaken := rfl

@[simp] theorem setSlot_V (j : Fin 16) (v : Word) : (s.setSlot j v).V = s.V := rfl
@[simp] theorem setSlot_I (j : Fin 16) (v : Word) : (s.setSlot j v).I = s.I := rfl
@[simp] theorem setSlot_PC (j : Fin 16) (v : Word) : (s.setSlot j v).PC = s.PC := rfl
@[simp] theorem setSlot_SP (j : Fin 16) (v : Word) : (s.setSlot j v).SP = s.SP := rfl
@[simp] theorem setSlot_S (j : Fin 16) (v : Word) : (s.setSlot j v).S = s.S.set j.val v j.isLt := rfl
@[simp] theorem setSlot_DT (j : Fin 16) (v : Word) : (s.setSlot j v).DT = s.DT := rfl
@[simp] theorem setSlot_ST (j : Fin 16) (v : Word) : (s.setSlot j v).ST = s.ST := rfl
@[simp] theorem setSlot_K (j : Fin 16) (v : Word) : (s.setSlot j v).K = s.K := rfl
@[simp] theorem setSlot_FB (j : Fin 16) (v : Word) : (s.setSlot j v).FB = s.FB := rfl
@[simp] theorem setSlot_M (j : Fin 16) (v : Word) : (s.setSlot j v).M = s.M := rfl
@[simp] theorem setSlot_rndTaken (j : Fin 16) (v : Word) : (s.setSlot j v).rndTaken = s.rndTaken := rfl

@[simp] theorem setDT_V (v : Byte) : (s.setDT v).V = s.V := rfl
@[simp] theorem setDT_I (v : Byte) : (s.setDT v).I = s.I := rfl
@[simp] theorem setDT_PC (v : Byte) : (s.setDT v).PC = s.PC := rfl
@[simp] theorem setDT_SP (v : Byte) : (s.setDT v).SP = s.SP := rfl
@[simp] theorem setDT_S (v : Byte) : (s.setDT v).S = s.S := rfl
@[simp] theorem setDT_DT (v : Byte) : (s.setDT v).DT = v := rfl
@[simp] theorem setDT_ST (v : Byte) : (s.setDT v).ST = s.ST := rfl
@[simp] theorem setDT_K (v : Byte) : (s.setDT v).K = s.K := rfl
@[simp] theorem setDT_FB (v : Byte) : (s.setDT v).FB = s.FB := rfl
@[simp] theorem setDT_M (v : Byte) : (s.setDT v).M = s.M := rfl
@[simp] theorem setDT_rndTaken (v : Byte) : (s.setDT v).rndTaken = s.rndTaken := rfl

@[simp] theorem setST_V (v : Byte) : (s.setST v).V = s.V := rfl
@[simp] theorem setST_I (v : Byte) : (s.setST v).I = s.I := rfl
@[simp] theorem setST_PC (v : Byte) : (s.setST v).PC = s.PC := rfl
@[simp] theorem setST_SP (v : Byte) : (s.setST v).SP = s.SP := rfl
@[simp] theorem setST_S (v : Byte) : (s.setST v).S = s.S := rfl
@[simp] theorem setST_DT (v : Byte) : (s.setST v).DT = s.DT := rfl
@[simp] theorem setST_ST (v : Byte) : (s.setST v).ST = v := rfl
@[simp] theorem setST_K (v : Byte) : (s.setST v).K = s.K := rfl
@[simp] theorem setST_FB (v : Byte) : (s.setST v).FB = s.FB := rfl
@[simp] theorem setST_M (v : Byte) : (s.setST v).M = s.M := rfl
@[simp] theorem setST_rndTaken (v : Byte) : (s.setST v).rndTaken = s.rndTaken := rfl

@[simp] theorem setKey_V (k : Reg) (b : Bool) : (s.setKey k b).V = s.V := rfl
@[simp] theorem setKey_I (k : Reg) (b : Bool) : (s.setKey k b).I = s.I := rfl
@[simp] theorem setKey_PC (k : Reg) (b : Bool) : (s.setKey k b).PC = s.PC := rfl
@[simp] theorem setKey_SP (k : Reg) (b : Bool) : (s.setKey k b).SP = s.SP := rfl
@[simp] theorem setKey_S (k : Reg) (b : Bool) : (s.setKey k b).S = s.S := rfl
@[simp] theorem setKey_DT (k : Reg) (b : Bool) : (s.setKey k b).DT = s.DT := rfl
@[simp] theorem setKey_ST (k : Reg) (b : Bool) : (s.setKey k b).ST = s.ST := rfl
@[simp] theorem setKey_K (k : Reg) (b : Bool) : (s.setKey k b).K = s.K.set k.val b k.isLt := rfl
@[simp] theorem setKey_FB (k : Reg) (b : Bool) : (s.setKey k b).FB = s.FB := rfl
@[simp] theorem setKey_M (k : Reg) (b : Bool) : (s.setKey k b).M = s.M := rfl
@[simp] theorem setKey_rndTaken (k : Reg) (b : Bool) : (s.setKey k b).rndTaken = s.rndTaken := rfl

@[simp] theorem setFB_V (fb : Screen) : (s.setFB fb).V = s.V := rfl
@[simp] theorem setFB_I (fb : Screen) : (s.setFB fb).I = s.I := rfl
@[simp] theorem setFB_PC (fb : Screen) : (s.setFB fb).PC = s.PC := rfl
@[simp] theorem setFB_SP (fb : Screen) : (s.setFB fb).SP = s.SP := rfl
@[simp] theorem setFB_S (fb : Screen) : (s.setFB fb).S = s.S := rfl
@[simp] theorem setFB_DT (fb : Screen) : (s.setFB fb).DT = s.DT := rfl
@[simp] theorem setFB_ST (fb : Screen) : (s.setFB fb).ST = s.ST := rfl
@[simp] theorem setFB_K (fb : Screen) : (s.setFB fb).K = s.K := rfl
@[simp] theorem setFB_FB (fb : Screen) : (s.setFB fb).FB = fb := rfl
@[simp] theorem setFB_M (fb : Screen) : (s.setFB fb).M = s.M := rfl
@[simp] theorem setFB_rndTaken (fb : Screen) : (s.setFB fb).rndTaken = s.rndTaken := rfl

@[simp] theorem setM_V (m : Memory) : (s.setM m).V = s.V := rfl
@[simp] theorem setM_I (m : Memory) : (s.setM m).I = s.I := rfl
@[simp] theorem setM_PC (m : Memory) : (s.setM m).PC = s.PC := rfl
@[simp] theorem setM_SP (m : Memory) : (s.setM m).SP = s.SP := rfl
@[simp] theorem setM_S (m : Memory) : (s.setM m).S = s.S := rfl
@[simp] theorem setM_DT (m : Memory) : (s.setM m).DT = s.DT := rfl
@[simp] theorem setM_ST (m : Memory) : (s.setM m).ST = s.ST := rfl
@[simp] theorem setM_K (m : Memory) : (s.setM m).K = s.K := rfl
@[simp] theorem setM_FB (m : Memory) : (s.setM m).FB = s.FB := rfl
@[simp] theorem setM_M (m : Memory) : (s.setM m).M = m := rfl
@[simp] theorem setM_rndTaken (m : Memory) : (s.setM m).rndTaken = s.rndTaken := rfl

@[simp] theorem countDraw_V : s.countDraw.V = s.V := rfl
@[simp] theorem countDraw_I : s.countDraw.I = s.I := rfl
@[simp] theorem countDraw_PC : s.countDraw.PC = s.PC := rfl
@[simp] theorem countDraw_SP : s.countDraw.SP = s.SP := rfl
@[simp] theorem countDraw_S : s.countDraw.S = s.S := rfl
@[simp] theorem countDraw_DT : s.countDraw.DT = s.DT := rfl
@[simp] theorem countDraw_ST : s.countDraw.ST = s.ST := rfl
@[simp] theorem countDraw_K : s.countDraw.K = s.K := rfl
@[simp] theorem countDraw_FB : s.countDraw.FB = s.FB := rfl
@[simp] theorem countDraw_M : s.countDraw.M = s.M := rfl
@[simp] theorem countDraw_rndTaken : s.countDraw.rndTaken = s.rndTaken + 1 := rfl

@[simp] theorem transferTo_V (t : Word) : (s.transferTo t).V = s.V := rfl
@[simp] theorem transferTo_I (t : Word) : (s.transferTo t).I = s.I := rfl
@[simp] theorem transferTo_PC (t : Word) : (s.transferTo t).PC = t - 2 := rfl
@[simp] theorem transferTo_SP (t : Word) : (s.transferTo t).SP = s.SP := rfl
@[simp] theorem transferTo_S (t : Word) : (s.transferTo t).S = s.S := rfl
@[simp] theorem transferTo_DT (t : Word) : (s.transferTo t).DT = s.DT := rfl
@[simp] theorem transferTo_ST (t : Word) : (s.transferTo t).ST = s.ST := rfl
@[simp] theorem transferTo_K (t : Word) : (s.transferTo t).K = s.K := rfl
@[simp] theorem transferTo_FB (t : Word) : (s.transferTo t).FB = s.FB := rfl
@[simp] theorem transferTo_M (t : Word) : (s.transferTo t).M = s.M := rfl
@[simp] theorem transferTo_rndTaken (t : Word) : (s.transferTo t).rndTaken = s.rndTaken := rfl

@[simp] theorem advance_V : s.advance.V = s.V := rfl
@[simp] theorem advance_I : s.advance.I = s.I := rfl
@[simp] theorem advance_PC : s.advance.PC = s.PC + 2 := rfl
@[simp] theorem advance_SP : s.advance.SP = s.SP := rfl
@[simp] theorem advance_S : s.advance.S = s.S := rfl
@[simp] theorem advance_DT : s.advance.DT = s.DT := rfl
@[simp] theorem advance_ST : s.advance.ST = s.ST := rfl
@[simp] theorem advance_K : s.advance.K = s.K := rfl
@[simp] theorem advance_FB : s.advance.FB = s.FB := rfl
@[simp] theorem advance_M : s.advance.M = s.M := rfl
@[simp] theorem advance_rndTaken : s.advance.rndTaken = s.rndTaken := rfl

@[simp] theorem setI_reg (v : Word) (q : Reg) : (s.setI v).reg q = s.reg q := rfl
@[simp] theorem setPC_reg (v : Word) (q : Reg) : (s.setPC v).reg q = s.reg q := rfl
@[simp] theorem setSP_reg (v : Fin 16) (q : Reg) : (s.setSP v).reg q = s.reg q := rfl
@[simp] theorem setSlot_reg (j : Fin 16) (v : Word) (q : Reg) : (s.setSlot j v).reg q = s.reg q := rfl
@[simp] theorem setDT_reg (v : Byte) (q : Reg) : (s.setDT v).reg q = s.reg q := rfl
@[simp] theorem setST_reg (v : Byte) (q : Reg) : (s.setST v).reg q = s.reg q := rfl
@[simp] theorem setKey_reg (k : Reg) (b : Bool) (q : Reg) : (s.setKey k b).reg q = s.reg q := rfl
@[simp] theorem setFB_reg (fb : Screen) (q : Reg) : (s.setFB fb).reg q = s.reg q := rfl
@[simp] theorem setM_reg (m : Memory) (q : Reg) : (s.setM m).reg q = s.reg q := rfl
@[simp] theorem countDraw_reg (q : Reg) : s.countDraw.reg q = s.reg q := rfl
@[simp] theorem transferTo_reg (t : Word) (q : Reg) : (s.transferTo t).reg q = s.reg q := rfl
@[simp] theorem advance_reg (q : Reg) : s.advance.reg q = s.reg q := rfl

@[simp] theorem setReg_slot (r : Reg) (v : Byte) (q : Fin 16) : (s.setReg r v).slot q = s.slot q := rfl
@[simp] theorem setI_slot (v : Word) (q : Fin 16) : (s.setI v).slot q = s.slot q := rfl
@[simp] theorem setPC_slot (v : Word) (q : Fin 16) : (s.setPC v).slot q = s.slot q := rfl
@[simp] theorem setSP_slot (v : Fin 16) (q : Fin 16) : (s.setSP v).slot q = s.slot q := rfl
@[simp] theorem setDT_slot (v : Byte) (q : Fin 16) : (s.setDT v).slot q = s.slot q := rfl
@[simp] theorem setST_slot (v : Byte) (q : Fin 16) : (s.setST v).slot q = s.slot q := rfl
@[simp] theorem setKey_slot (k : Reg) (b : Bool) (q : Fin 16) : (s.setKey k b).slot q = s.slot q := rfl
@[simp] theorem setFB_slot (fb : Screen) (q : Fin 16) : (s.setFB fb).slot q = s.slot q := rfl
@[simp] theorem setM_slot (m : Memory) (q : Fin 16) : (s.setM m).slot q = s.slot q := rfl
@[simp] theorem countDraw_slot (q : Fin 16) : s.countDraw.slot q = s.slot q := rfl
@[simp] theorem transferTo_slot (t : Word) (q : Fin 16) : (s.transferTo t).slot q = s.slot q := rfl
@[simp] theorem advance_slot (q : Fin 16) : s.advance.slot q = s.slot q := rfl

@[simp] theorem setReg_key (r : Reg) (v : Byte) (q : Reg) : (s.setReg r v).key q = s.key q := rfl
@[simp] theorem setI_key (v : Word) (q : Reg) : (s.setI v).key q = s.key q := rfl
@[simp] theorem setPC_key (v : Word) (q : Reg) : (s.setPC v).key q = s.key q := rfl
@[simp] theorem setSP_key (v : Fin 16) (q : Reg) : (s.setSP v).key q = s.key q := rfl
@[simp] theorem setSlot_key (j : Fin 16) (v : Word) (q : Reg) : (s.setSlot j v).key q = s.key q := rfl
@[simp] theorem setDT_key (v : Byte) (q : Reg) : (s.setDT v).key q = s.key q := rfl
@[simp] theorem setST_key (v : Byte) (q : Reg) : (s.setST v).key q = s.key q := rfl
@[simp] theorem setFB_key (fb : Screen) (q : Reg) : (s.setFB fb).key q = s.key q := rfl
@[simp] theorem setM_key (m : Memory) (q : Reg) : (s.setM m).key q = s.key q := rfl
@[simp] theorem countDraw_key (q : Reg) : s.countDraw.key q = s.key q := rfl
@[simp] theorem transferTo_key (t : Word) (q : Reg) : (s.transferTo t).key q = s.key q := rfl
@[simp] theorem advance_key (q : Reg) : s.advance.key q = s.key q := rfl

/-- Reading a register after writing one. -/
@[simp] theorem setReg_reg (r q : Reg) (v : Byte) : (s.setReg r v).reg q = if q = r then v else s.reg q := by
  simp only [reg, setReg, Fin.getElem_fin, Vector.getElem_set, Fin.ext_iff, eq_comm]

/-- Reading a stack slot after writing one. -/
@[simp] theorem setSlot_slot (j q : Fin 16) (v : Word) : (s.setSlot j v).slot q = if q = j then v else s.slot q := by
  simp only [slot, setSlot, Fin.getElem_fin, Vector.getElem_set, Fin.ext_iff, eq_comm]

/-- Reading a key after writing one. -/
@[simp] theorem setKey_key (k q : Reg) (b : Bool) : (s.setKey k b).key q = if q = k then b else s.key q := by
  simp only [key, setKey, Fin.getElem_fin, Vector.getElem_set, Fin.ext_iff, eq_comm]

/-- The net effect of a control transfer: PC is the target when the step ends (R104). -/
@[simp] theorem transferTo_advance (t : Word) : (s.transferTo t).advance = s.setPC t := by
  simp only [transferTo, advance, setPC, BitVec.sub_add_cancel]

/-- Reading a register of the vector itself. -/
theorem reg_eq (r : Reg) : s.reg r = s.V[r] := rfl

/-- Two states with the same fields are the same state. -/
theorem ext_fields {s t : State} (hV : ∀ r, s.reg r = t.reg r) (hI : s.I = t.I) (hPC : s.PC = t.PC) (hSP : s.SP = t.SP)
    (hS : s.S = t.S) (hDT : s.DT = t.DT) (hST : s.ST = t.ST) (hK : s.K = t.K) (hFB : s.FB = t.FB) (hM : s.M = t.M)
    (hr : s.rndTaken = t.rndTaken) : s = t := by
  have hV' : s.V = t.V := by
    apply Vector.ext
    intro i hi
    exact hV ⟨i, hi⟩
  cases s
  cases t
  simp_all

end Sys2Proof.Machine.State

namespace Sys2Proof.Machine

/-- A raised error ends in that fault (R14). -/
@[simp] theorem retire_raise (e : Fault) : retire (raise e) = .fault e := rfl

/-- A raised error leaves no state. -/
@[simp] theorem raise_ne_ok (e : Fault) (s : State) : raise e ≠ .ok s := by
  simp [raise]

@[simp] theorem retire_ok (s : State) : retire (.ok s) = .next s.advance := rfl

@[simp] theorem retire_error (e : Fault) : retire (.error e) = .fault e := rfl

/-- All that retiring can do: a next state comes from an effect's state by ADVANCE. -/
theorem retire_eq_next {e : Effect} {t : State} : retire e = .next t ↔ ∃ u, e = .ok u ∧ u.advance = t := by
  cases e <;> simp

/-- All that retiring can do: a fault is the effect's own error. -/
theorem retire_eq_fault {e : Effect} {f : Fault} : retire e = .fault f ↔ e = .error f := by
  cases e <;> simp

/-- Retiring never refuses. -/
theorem retire_ne_refused (e : Effect) (r : Refusal) : retire e ≠ .refused r := by
  cases e <;> simp

end Sys2Proof.Machine
end

