-- ==== Sys2Proof/Laws/Operands.lean ====
section
/-! SUPPORT. What each shared operand operation does, said once. -/

namespace Sys2Proof.Machine

/-! ### Index-relative data (R193) -/

theorem dataPastEnd_eq_true {s : State} {n : Nat} :
    dataPastEnd s n = true ↔ n > 0 ∧ s.I.toNat + (n - 1) > 0xFFF := by
  simp [dataPastEnd, dataAddr]

theorem withData_eq_ok {s t : State} {n : Nat} {body : Effect} :
    withData s n body = .ok t ↔ (n = 0 ∨ s.I.toNat + (n - 1) ≤ 0xFFF) ∧ body = .ok t := by
  unfold withData
  by_cases h : dataPastEnd s n = true
  · rw [if_pos h]
    rw [dataPastEnd_eq_true] at h
    simp only [raise, reduceCtorEq, false_iff, not_and]
    omega
  · rw [if_neg h]
    rw [dataPastEnd_eq_true] at h
    constructor
    · intro hb; exact ⟨by omega, hb⟩
    · exact fun hb => hb.2

theorem withData_of_le {s : State} {n : Nat} {body : Effect} (h : n = 0 ∨ s.I.toNat + (n - 1) ≤ 0xFFF) :
    withData s n body = body := by
  unfold withData
  rw [if_neg]
  rw [dataPastEnd_eq_true]
  omega

theorem withData_of_gt {s : State} {n : Nat} {body : Effect} (h0 : n > 0) (h : s.I.toNat + (n - 1) > 0xFFF) :
    withData s n body = raise (.execAddrOutOfBounds (max s.I.toNat 0x1000)) := by
  unfold withData
  rw [if_pos (dataPastEnd_eq_true.mpr ⟨h0, h⟩)]

/-! ### Key numbers (R230) -/

theorem withKey_of_lt {v : Byte} {body : Reg → Effect} (h : v.toNat < 16) : withKey v body = body ⟨v.toNat, h⟩ := by
  unfold withKey
  rw [dif_pos h]

theorem withKey_of_ge {v : Byte} {body : Reg → Effect} (h : ¬ v.toNat < 16) :
    withKey v body = raise (.keyOutOfBounds v.toNat) := by
  unfold withKey
  rw [dif_neg h]

/-- The lowest pressed key: it is pressed and no lower one is (R236). -/
theorem lowestKey_eq_some {s : State} {k : Reg} :
    lowestKey s = some k ↔ s.key k = true ∧ ∀ j : Reg, j < k → s.key j = false := by
  unfold lowestKey
  rw [List.find?_eq_some_iff_getElem]
  constructor
  · rintro ⟨hk, i, hi, hik, hlow⟩
    refine ⟨hk, fun j hj => ?_⟩
    have hik' : i = k.val := by
      have := congrArg Fin.val hik
      simpa using this
    have := hlow j.val (by rw [hik']; exact hj)
    simpa using this
  · rintro ⟨hk, hlow⟩
    refine ⟨hk, k.val, by simp, by simp, fun j hj => ?_⟩
    have := hlow ⟨j, Nat.lt_trans hj k.isLt⟩ hj
    simpa using this

theorem lowestKey_eq_none {s : State} : lowestKey s = none ↔ ∀ k : Reg, s.key k = false := by
  unfold lowestKey
  rw [List.find?_eq_none]
  simp

/-! ### Skips (R144) -/

theorem skipIf_advance (cond : Bool) (s : State) :
    (skipIf cond s).advance = s.setPC (if cond then s.PC + 4 else s.PC + 2) := by
  cases cond
  · rfl
  · simp [skipIf]

/-! ### Register lists (R197, R198) -/

theorem regsUpTo_eq (x : Reg) : regsUpTo x = (List.range (x.val + 1)).map (Fin.ofNat 16) := by
  revert x
  decide

@[simp] theorem mem_regsUpTo {x r : Reg} : r ∈ regsUpTo x ↔ r ≤ x := by
  simp [regsUpTo]

@[simp] theorem length_regsUpTo (x : Reg) : (regsUpTo x).length = x.val + 1 := by
  simp [regsUpTo_eq]

theorem getElem_regsUpTo (x : Reg) (i : Nat) (h : i < (regsUpTo x).length) :
    (regsUpTo x)[i] = ⟨i, by rw [length_regsUpTo] at h; omega⟩ := by
  have hi : i < 16 := by rw [length_regsUpTo] at h; omega
  apply Fin.ext
  simp [regsUpTo_eq, Nat.mod_eq_of_lt hi]

/-- What loading a list of registers from I up does: the listed ones take their bytes, nothing else changes. -/
theorem loadRegs_spec (l : List Reg) (s : State) :
    let t := l.foldl (fun t i => t.setReg i (t.M.read (dataAddr t i.val))) s
    (∀ r : Reg, t.reg r = if r ∈ l then s.M.read (s.I.toNat + r.val) else s.reg r) ∧ t = { s with V := t.V } := by
  induction l generalizing s with
  | nil => simp
  | cons i l ih =>
    obtain ⟨h1, h2⟩ := ih (s.setReg i (s.M.read (dataAddr s i.val)))
    simp only [List.foldl_cons]
    refine ⟨fun r => ?_, ?_⟩
    · rw [h1 r]
      by_cases hr : r ∈ l
      · simp [hr]
      · by_cases hri : r = i
        · simp [hri, dataAddr]
        · simp [hr, hri]
    · rw [h2]; rfl

/-! ### Addresses and values as numbers -/

@[simp] theorem addrOf_toNat (nnn : BitVec 12) : (addrOf nnn).toNat = nnn.toNat := by
  have := nnn.isLt
  simp [addrOf]
  omega

/-- `nnn + V0` never wraps: at most 0x10FE (R149). -/
theorem indexedTarget_toNat (s : State) (nnn : BitVec 12) :
    (indexedTarget s nnn).toNat = nnn.toNat + (s.reg 0).toNat := by
  have h1 := nnn.isLt
  have h2 := (s.reg 0).isLt
  simp only [indexedTarget, BitVec.toNat_add, addrOf_toNat, BitVec.toNat_setWidth]
  omega

theorem flagByte_eq (b : Bool) : flagByte b = if b then 1 else 0 := rfl

/-- The net writes of a flag instruction as this core has them: VF holds the flag, also when x = F (R170). -/
theorem writeResultAndFlag_reg {c : Config} (h : c.flagLast = true) (x : Reg) (res flag : Byte) (late : Byte → Byte)
    (s : State) (r : Reg) :
    (writeResultAndFlag c x res flag late s).reg r = if r = Reg.vf then flag else if r = x then res else s.reg r := by
  simp [writeResultAndFlag, h]

/-- A flag instruction writes registers only (R170). -/
theorem writeResultAndFlag_frame (c : Config) (x : Reg) (res flag : Byte) (late : Byte → Byte) (s : State) :
    writeResultAndFlag c x res flag late s = { s with V := (writeResultAndFlag c x res flag late s).V } := by
  unfold writeResultAndFlag
  split <;> rfl

end Sys2Proof.Machine
end

