-- ==== Sys2Proof/Laws/PerInstr.lean ====
section
/-! SUPPORT. Statements about every instruction, one lemma per constructor. -/

/-- Family RoundTrip: decoding the word of a well-formed instruction gives the instruction back. -/
def Sys2Proof.Laws.RoundTrip.Statement (i : Sys2Proof.Instr) : Prop :=
  i.WellFormed → Sys2Proof.decodeWord Sys2Proof.Machine.ironchip (Sys2Proof.encode i) = some i

namespace Sys2Proof.Laws.RoundTrip

theorem cls : Statement .cls := by
  intro _
  decide

theorem ret : Statement .ret := by
  intro _
  decide

theorem jp (nnn : BitVec 12) : Statement (.jp nnn) := by
  intro _
  simp [encode, decodeWord]

theorem call (nnn : BitVec 12) : Statement (.call nnn) := by
  intro _
  simp [encode, decodeWord]

theorem seVB (x : Reg) (kk : Byte) : Statement (.seVB x kk) := by
  intro _
  simp [encode, decodeWord]

theorem sneVB (x : Reg) (kk : Byte) : Statement (.sneVB x kk) := by
  intro _
  simp [encode, decodeWord]

theorem seVV (x y : Reg) : Statement (.seVV x y) := by
  intro _
  simp [encode, decodeWord, decodeFamily59]

theorem ldVB (x : Reg) (kk : Byte) : Statement (.ldVB x kk) := by
  intro _
  simp [encode, decodeWord]

theorem addVB (x : Reg) (kk : Byte) : Statement (.addVB x kk) := by
  intro _
  simp [encode, decodeWord]

theorem ldVV (x y : Reg) : Statement (.ldVV x y) := by
  intro _
  simp [encode, decodeWord, decodeFamily8]

theorem orVV (x y : Reg) : Statement (.orVV x y) := by
  intro _
  simp [encode, decodeWord, decodeFamily8]

theorem andVV (x y : Reg) : Statement (.andVV x y) := by
  intro _
  simp [encode, decodeWord, decodeFamily8]

theorem xorVV (x y : Reg) : Statement (.xorVV x y) := by
  intro _
  simp [encode, decodeWord, decodeFamily8]

theorem addVV (x y : Reg) : Statement (.addVV x y) := by
  intro _
  simp [encode, decodeWord, decodeFamily8]

theorem sub (x y : Reg) : Statement (.sub x y) := by
  intro _
  simp [encode, decodeWord, decodeFamily8]

theorem shr (x y : Reg) : Statement (.shr x y) := by
  intro _
  simp [encode, decodeWord, decodeFamily8]

theorem subn (x y : Reg) : Statement (.subn x y) := by
  intro _
  simp [encode, decodeWord, decodeFamily8]

theorem shl (x y : Reg) : Statement (.shl x y) := by
  intro _
  simp [encode, decodeWord, decodeFamily8]

theorem sneVV (x y : Reg) : Statement (.sneVV x y) := by
  intro _
  simp [encode, decodeWord, decodeFamily59]

theorem ldI (nnn : BitVec 12) : Statement (.ldI nnn) := by
  intro _
  simp [encode, decodeWord]

theorem jpV0 (nnn : BitVec 12) : Statement (.jpV0 nnn) := by
  intro _
  simp [encode, decodeWord]

theorem rnd (x : Reg) (kk : Byte) : Statement (.rnd x kk) := by
  intro _
  simp [encode, decodeWord]

theorem drw (x y : Reg) (n : Nat) : Statement (.drw x y n) := by
  intro h
  have hn : n ≤ 15 := of_decide_eq_true h
  simp [encode, decodeWord]
  omega

theorem skp (x : Reg) : Statement (.skp x) := by
  intro _
  simp [encode, decodeWord, decodeFamilyE]

theorem sknp (x : Reg) : Statement (.sknp x) := by
  intro _
  simp [encode, decodeWord, decodeFamilyE]

theorem ldVDT (x : Reg) : Statement (.ldVDT x) := by
  intro _
  simp [encode, decodeWord, decodeFamilyF]

theorem ldVK (x : Reg) : Statement (.ldVK x) := by
  intro _
  simp [encode, decodeWord, decodeFamilyF]

theorem ldDTV (x : Reg) : Statement (.ldDTV x) := by
  intro _
  simp [encode, decodeWord, decodeFamilyF]

theorem ldSTV (x : Reg) : Statement (.ldSTV x) := by
  intro _
  simp [encode, decodeWord, decodeFamilyF]

theorem addIV (x : Reg) : Statement (.addIV x) := by
  intro _
  simp [encode, decodeWord, decodeFamilyF]

theorem ldFV (x : Reg) : Statement (.ldFV x) := by
  intro _
  simp [encode, decodeWord, decodeFamilyF]

theorem ldBV (x : Reg) : Statement (.ldBV x) := by
  intro _
  simp [encode, decodeWord, decodeFamilyF]

theorem ldMV (x : Reg) : Statement (.ldMV x) := by
  intro _
  simp [encode, decodeWord, decodeFamilyF]

theorem ldVM (x : Reg) : Statement (.ldVM x) := by
  intro _
  simp [encode, decodeWord, decodeFamilyF]

end Sys2Proof.Laws.RoundTrip
end

