-- ==== Sys2Proof/Laws/Screen.lean ====
section
/-! SUPPORT. The laws of the framebuffer, and all that the sprite draw does: each pixel is XORed with the sprite's bit there,
and a collision is a lit pixel under a set bit. -/

namespace Sys2Proof.Machine

namespace Screen

/-- Reading a pixel after writing one. -/
@[simp] theorem setPixel_pixel (fb : Screen) (y q : Fin 32) (x p : Fin 64) (b : Bool) :
    (fb.setPixel y x b).pixel q p = if q = y ∧ p = x then b else fb.pixel q p := by
  simp only [pixel, setPixel, Fin.getElem_fin, Vector.getElem_set, Fin.ext_iff]
  by_cases hy : y.val = q.val
  · simp only [hy, if_true, true_and, Vector.getElem_set, eq_comm]
  · simp only [hy, if_false]
    split
    · rename_i h
      exact absurd h.1.symm hy
    · rfl

@[simp] theorem clear_pixel (y : Fin 32) (x : Fin 64) : clear.pixel y x = false := by
  simp [clear, pixel]

/-- Framebuffers with the same pixels are the same. -/
theorem ext_pixel {f g : Screen} (h : ∀ y x, f.pixel y x = g.pixel y x) : f = g := by
  apply Vector.ext
  intro y hy
  apply Vector.ext
  intro x hx
  exact h ⟨y, hy⟩ ⟨x, hx⟩

end Screen

/-- Is the pixel in row `y`, column `x` under a set bit of the sprite's first `n` rows (R211)? -/
def spriteCovers (x0 y0 n : Nat) (rows : Nat → Byte) (y x : Nat) : Bool :=
  decide (y0 ≤ y ∧ y < y0 + n ∧ x0 ≤ x ∧ x < x0 + 8) && spriteBit (rows (y - y0)) (x - x0)

/-- One row's first `k` columns. -/
theorem drawPixels_spec (x0 y0 r : Nat) (row : Byte) (d : DrawState) (k : Nat) :
    (∀ (y : Fin 32) (x : Fin 64), ((List.range k).foldl (drawPixel x0 y0 r row) d).fb.pixel y x =
      Bool.xor (d.fb.pixel y x)
        (decide (y.val = y0 + r ∧ x0 ≤ x.val ∧ x.val < x0 + k) && spriteBit row (x.val - x0))) ∧
    (((List.range k).foldl (drawPixel x0 y0 r row) d).collision = true ↔
      d.collision = true ∨ ∃ (y : Fin 32) (x : Fin 64), (y.val = y0 + r ∧ x0 ≤ x.val ∧ x.val < x0 + k) ∧
        spriteBit row (x.val - x0) = true ∧ d.fb.pixel y x = true) := by
  induction k with
  | zero =>
    have h0 (y : Fin 32) (x : Fin 64) : ¬ (y.val = y0 + r ∧ x0 ≤ x.val ∧ x.val < x0 + 0) := by omega
    refine ⟨fun y x => ?_, ?_⟩ <;> simp only [h0] <;> simp
  | succ k ih =>
    obtain ⟨ihp, ihc⟩ := ih
    rw [List.range_succ, List.foldl_append, List.foldl_cons, List.foldl_nil]
    generalize (List.range k).foldl (drawPixel x0 y0 r row) d = e at ihp ihc ⊢
    unfold drawPixel
    by_cases h : y0 + r < 32 ∧ x0 + k < 64
    · rw [dif_pos h]
      by_cases hb : spriteBit row k = true
      · rw [if_pos hb]
        refine ⟨fun y x => ?_, ?_⟩
        · simp only [Screen.setPixel_pixel, ihp, Fin.ext_iff]
          by_cases hyx : y.val = y0 + r ∧ x.val = x0 + k
          · rw [if_pos hyx]
            have hx : x.val - x0 = k := by omega
            have h2 : y.val = y0 + r ∧ x0 ≤ x.val ∧ x.val < x0 + (k + 1) := by omega
            have hy' : (⟨y0 + r, h.1⟩ : Fin 32) = y := Fin.ext hyx.1.symm
            have hx' : (⟨x0 + k, h.2⟩ : Fin 64) = x := Fin.ext hyx.2.symm
            simp only [hx, hb, hy', hx', h2]
            cases d.fb.pixel y x <;> simp
          · rw [if_neg hyx]
            have : (y.val = y0 + r ∧ x0 ≤ x.val ∧ x.val < x0 + (k + 1)) ↔
                (y.val = y0 + r ∧ x0 ≤ x.val ∧ x.val < x0 + k) := by omega
            simp only [this]
        · simp only [Bool.or_eq_true, ihc, ihp]
          have hk : ¬ (x0 + k < x0 + k) := by omega
          constructor
          · rintro ((hd | ⟨y, x, hyx, hs⟩) | hold)
            · exact Or.inl hd
            · exact Or.inr ⟨y, x, by omega, hs⟩
            · refine Or.inr ⟨⟨y0 + r, h.1⟩, ⟨x0 + k, h.2⟩, by simp, ?_, ?_⟩
              · simpa using hb
              · simpa [hk] using hold
          · rintro (hd | ⟨y, x, hyx, hs, hp⟩)
            · exact Or.inl (Or.inl hd)
            · by_cases hx : x.val = x0 + k
              · right
                have hy' : (⟨y0 + r, h.1⟩ : Fin 32) = y := Fin.ext hyx.1.symm
                have hx' : (⟨x0 + k, h.2⟩ : Fin 64) = x := Fin.ext hx.symm
                rw [hy', hx']
                simpa [hk] using hp
              · exact Or.inl (Or.inr ⟨y, x, by omega, hs, hp⟩)
      · rw [if_neg hb]
        have hb : spriteBit row k = false := by simpa using hb
        refine ⟨fun y x => ?_, ?_⟩
        · rw [ihp]
          by_cases hx : x.val = x0 + k
          · simp [hx, hb]
          · have : (y.val = y0 + r ∧ x0 ≤ x.val ∧ x.val < x0 + (k + 1)) ↔
                (y.val = y0 + r ∧ x0 ≤ x.val ∧ x.val < x0 + k) := by omega
            simp only [this]
        · rw [ihc]
          constructor
          · rintro (hd | ⟨y, x, hyx, hs⟩)
            · exact Or.inl hd
            · exact Or.inr ⟨y, x, by omega, hs⟩
          · rintro (hd | ⟨y, x, hyx, hs, hp⟩)
            · exact Or.inl hd
            · by_cases hx : x.val = x0 + k
              · rw [show x.val - x0 = k by omega, hb] at hs
                exact absurd hs (by simp)
              · exact Or.inr ⟨y, x, by omega, hs, hp⟩
    · rw [dif_neg h]
      have hyx (y : Fin 32) (x : Fin 64) : (y.val = y0 + r ∧ x0 ≤ x.val ∧ x.val < x0 + (k + 1)) ↔
          (y.val = y0 + r ∧ x0 ≤ x.val ∧ x.val < x0 + k) := by omega
      simp only [hyx]
      exact ⟨ihp, ihc⟩

/-- All that the draw does to the framebuffer and the collision detector (R212). -/
theorem drawSprite_spec (x0 y0 n : Nat) (rows : Nat → Byte) (fb : Screen) :
    (∀ (y : Fin 32) (x : Fin 64), (drawSprite x0 y0 n rows fb).fb.pixel y x =
      Bool.xor (fb.pixel y x) (spriteCovers x0 y0 n rows y x)) ∧
    ((drawSprite x0 y0 n rows fb).collision = true ↔
      ∃ (y : Fin 32) (x : Fin 64), spriteCovers x0 y0 n rows y x = true ∧ fb.pixel y x = true) := by
  unfold drawSprite
  induction n with
  | zero =>
    have h0 (y : Fin 32) (x : Fin 64) : ¬ (y0 ≤ y.val ∧ y.val < y0 + 0 ∧ x0 ≤ x.val ∧ x.val < x0 + 8) := by omega
    refine ⟨fun y x => ?_, ?_⟩ <;> simp only [spriteCovers, h0] <;> simp
  | succ n ih =>
    obtain ⟨ihp, ihc⟩ := ih
    rw [List.range_succ, List.foldl_append, List.foldl_cons, List.foldl_nil]
    generalize (List.range n).foldl (drawRow x0 y0 rows) ⟨fb, false⟩ = e at ihp ihc ⊢
    obtain ⟨hp, hc⟩ := drawPixels_spec x0 y0 n (rows n) e 8
    unfold drawRow
    have hcov (y : Fin 32) (x : Fin 64) : spriteCovers x0 y0 (n + 1) rows y x =
        (spriteCovers x0 y0 n rows y x ||
          (decide (y.val = y0 + n ∧ x0 ≤ x.val ∧ x.val < x0 + 8) && spriteBit (rows n) (x.val - x0))) := by
      unfold spriteCovers
      by_cases hy : y.val = y0 + n
      · simp [hy]
      · have : (y0 ≤ y.val ∧ y.val < y0 + (n + 1) ∧ x0 ≤ x.val ∧ x.val < x0 + 8) ↔
            (y0 ≤ y.val ∧ y.val < y0 + n ∧ x0 ≤ x.val ∧ x.val < x0 + 8) := by omega
        simp [this, hy]
    have hdis (y : Fin 32) (x : Fin 64) (h : y.val = y0 + n) : spriteCovers x0 y0 n rows y x = false := by
      simp [spriteCovers, h]
    refine ⟨fun y x => ?_, ?_⟩
    · rw [hp, ihp, hcov]
      by_cases hy : y.val = y0 + n
      · rw [hdis y x hy]; simp
      · simp [hy]
    · rw [hc, ihc]
      constructor
      · rintro (⟨y, x, h1, h2⟩ | ⟨y, x, h1, h2, h3⟩)
        · exact ⟨y, x, by rw [hcov, h1, Bool.true_or], h2⟩
        · rw [ihp, hdis y x h1.1] at h3
          exact ⟨y, x, by rw [hcov]; simp [h1, h2], by simpa using h3⟩
      · rintro ⟨y, x, h1, h2⟩
        rw [hcov, Bool.or_eq_true] at h1
        rcases h1 with h1 | h1
        · exact Or.inl ⟨y, x, h1, h2⟩
        · simp only [Bool.and_eq_true, decide_eq_true_eq] at h1
          refine Or.inr ⟨y, x, h1.1, h1.2, ?_⟩
          rw [ihp, hdis y x h1.1.1, h2]; rfl

end Sys2Proof.Machine
end

