-- ==== Sys2Proof/Laws/Step.lean ====
section
/-! SUPPORT. What one step, one phase and one frame can do, said once. -/

namespace Sys2Proof.Machine

/-! ### FETCH and DECODE -/

theorem fetch_of_le {s : State} (h : s.PC.toNat ≤ 0xFFE) :
    fetch s = .ok (wordOfBytes (s.M.read s.PC.toNat) (s.M.read (s.PC.toNat + 1))) := by
  unfold fetch
  rw [if_neg (by omega)]

theorem fetch_of_gt {s : State} (h : s.PC.toNat > 0xFFE) : fetch s = .error (.pcOutOfBounds s.PC) := by
  unfold fetch
  rw [if_pos h]

theorem decodePhase_of_some {c : Config} {op : Word} {i : Instr} (h : decodeWord c op = some i) :
    decodePhase c op = .ok i := by
  unfold decodePhase
  rw [h]

theorem decodePhase_of_none {c : Config} {op : Word} (h : decodeWord c op = none) :
    decodePhase c op = .error (.unrecognizedOpcode op) := by
  unfold decodePhase
  rw [h]

theorem decodePhase_eq_ok {c : Config} {op : Word} {i : Instr} : decodePhase c op = .ok i ↔ decodeWord c op = some i := by
  unfold decodePhase
  cases decodeWord c op <;> simp

/-! ### The dispatch -/

/-- Every arm of `exec` is EXECUTE and then ADVANCE, at this core's parameters (R103, R104). -/
theorem exec_eq_retire (i : Instr) (s : State) : exec i s = retire (executePhase ironchip i s) := by
  cases i <;> rfl

/-! ### The phases (R100) -/

theorem phaseStep_fetch (c : Config) (s : State) : phaseStep c .fetch s =
    match fetch s with
    | .ok op => (.decode op, s)
    | .error e => (.error e, s) := rfl

theorem phaseStep_decode (c : Config) (op : Word) (s : State) : phaseStep c (.decode op) s =
    match decodePhase c op with
    | .ok i => (.execute op i, s)
    | .error e => (.error e, s) := rfl

theorem phaseStep_execute (c : Config) (op : Word) (i : Instr) (s : State) : phaseStep c (.execute op i) s =
    match executePhase c i s with
    | .ok t => (.advance op, t)
    | .error e => (.error e, s) := rfl

@[simp] theorem phaseStep_advance (c : Config) (op : Word) (s : State) :
    phaseStep c (.advance op) s = (.done op, s.advance) := rfl

@[simp] theorem runPhases_zero (c : Config) (p : Phase × State) : runPhases c 0 p = p := rfl

theorem runPhases_succ (c : Config) (n : Nat) (p : Phase) (s : State) :
    runPhases c (n + 1) (p, s) = runPhases c n (phaseStep c p s) := rfl

/-! ### A step -/

@[simp] theorem outcome_ofOutcome (op : Word) (o : StepOutcome) : (StepResult.ofOutcome op o).outcome = o := by
  cases o <;> rfl

/-- Where the fetched word decodes, the step is the instruction's `exec`. -/
theorem stepResult_of_decode {s : State} {op : Word} {i : Instr} (hf : fetch s = .ok op)
    (hd : decodeWord ironchip op = some i) : stepResult s = StepResult.ofOutcome op (exec i s) := by
  unfold stepResult
  rw [hf]
  simp only [decodePhase_of_some hd]

/-- All that a successful step can be: a fetch, a decode and an instruction that completed. -/
theorem stepResult_eq_ok {s t : State} {op : Word} :
    stepResult s = .ok op t ↔ fetch s = .ok op ∧ ∃ i, decodeWord ironchip op = some i ∧ exec i s = .next t := by
  unfold stepResult
  cases hf : fetch s with
  | error e => simp
  | ok w =>
    cases hd : decodeWord ironchip w with
    | none =>
      simp only [decodePhase_of_none hd, reduceCtorEq, Except.ok.injEq, false_iff, not_and]
      rintro rfl
      simp [hd]
    | some i =>
      simp only [decodePhase_of_some hd, Except.ok.injEq]
      constructor
      · intro h
        cases he : exec i s with
        | next u =>
          simp only [he, StepResult.ofOutcome, StepResult.ok.injEq] at h
          exact ⟨h.1, i, h.1 ▸ hd, h.2 ▸ he⟩
        | fault e => simp [he, StepResult.ofOutcome] at h
        | refused r => simp [he, StepResult.ofOutcome] at h
      · rintro ⟨rfl, j, hj, he⟩
        rw [hd] at hj
        cases hj
        simp [he, StepResult.ofOutcome]

theorem step_eq_next {s t : State} : step s = .next t ↔ ∃ op, stepResult s = .ok op t := by
  unfold step
  cases stepResult s <;> simp [StepResult.outcome]

/-- All that a step to a next state can be. -/
theorem step_cases {s t : State} (h : step s = .next t) :
    ∃ op i, fetch s = .ok op ∧ decodeWord ironchip op = some i ∧ exec i s = .next t := by
  obtain ⟨op, h⟩ := step_eq_next.mp h
  obtain ⟨hf, i, hd, he⟩ := stepResult_eq_ok.mp h
  exact ⟨op, i, hf, hd, he⟩

end Sys2Proof.Machine
end

