-- ==== Sys2Proof/Tests/Slice0.lean ====
section
/-! SUPPORT. The model's own tests: decoding of a word of every instruction, the well-formedness smoke test, one-step tests
from the vectors of spec/95_test_vectors.md (each names its row), and a witness for every statement with hypotheses.
Expected values come from the spec's tables, never from the model. -/

namespace Sys2Proof.Tests

open Sys2Proof Sys2Proof.Machine

/-! ### Helpers -/

/-- `s` with some registers set. -/
def withRegs (l : List (Reg × Byte)) (s : State) : State := l.foldl (fun t e => t.setReg e.1 e.2) s

/-- `s` with bytes placed in memory. -/
def withBytes (a : Nat) (bs : List Byte) (s : State) : State := s.setM (s.M.writeAll a bs)

/-- The reset state with one instruction word placed where it is fetched. -/
def at200 (w : Nat) : State := State.reset.withFetchWord 16 w

/-- Does the outcome have a next state with this property? -/
def leads (o : StepOutcome) (p : State → Bool) : Bool :=
  match o with
  | .next t => p t
  | .fault _ => false
  | .refused _ => false

/-- Does the outcome stop with this error? -/
def stops (o : StepOutcome) (e : Fault) : Bool :=
  match o with
  | .next _ => false
  | .fault f => f == e
  | .refused _ => false

/-! ### Decoding: a word of every instruction, written out from the formats of R71 and the rows of R73 -/

theorem test_decode_family0 : decodeTableWord 16 0x00E0 = some .cls ∧ decodeTableWord 16 0x00EE = some .ret := by decide

theorem test_decode_flow : decodeTableWord 16 0b0001001101000101 = some (.jp 0x345) ∧
    decodeTableWord 16 0b0010001101000101 = some (.call 0x345) ∧
    decodeTableWord 16 0b1011111111111110 = some (.jpV0 0xFFE) := by decide

theorem test_decode_skips : decodeTableWord 16 0b0011101001011100 = some (.seVB 10 0x5C) ∧
    decodeTableWord 16 0b0100101001011100 = some (.sneVB 10 0x5C) ∧
    decodeTableWord 16 0b0101001011000000 = some (.seVV 2 12) ∧
    decodeTableWord 16 0b1001001011000000 = some (.sneVV 2 12) := by decide

theorem test_decode_immediates : decodeTableWord 16 0b0110001110000001 = some (.ldVB 3 0x81) ∧
    decodeTableWord 16 0b0111001110000001 = some (.addVB 3 0x81) ∧
    decodeTableWord 16 0b1100001110000001 = some (.rnd 3 0x81) := by decide

theorem test_decode_moves : decodeTableWord 16 0b1000001011000000 = some (.ldVV 2 12) ∧
    decodeTableWord 16 0b1000001011000001 = some (.orVV 2 12) ∧
    decodeTableWord 16 0b1000001011000010 = some (.andVV 2 12) ∧
    decodeTableWord 16 0b1000001011000011 = some (.xorVV 2 12) := by decide

theorem test_decode_flagged : decodeTableWord 16 0b1000001011000100 = some (.addVV 2 12) ∧
    decodeTableWord 16 0b1000001011000101 = some (.sub 2 12) ∧
    decodeTableWord 16 0b1000001011000110 = some (.shr 2 12) ∧
    decodeTableWord 16 0b1000001011000111 = some (.subn 2 12) ∧
    decodeTableWord 16 0b1000001011001110 = some (.shl 2 12) := by decide

theorem test_decode_index : decodeTableWord 16 0b1010111100001110 = some (.ldI 0xF0E) ∧
    decodeTableWord 16 0b1111011100011110 = some (.addIV 7) ∧
    decodeTableWord 16 0b1111011100101001 = some (.ldFV 7) ∧
    decodeTableWord 16 0b1111011100110011 = some (.ldBV 7) ∧
    decodeTableWord 16 0b1111011101010101 = some (.ldMV 7) ∧
    decodeTableWord 16 0b1111011101100101 = some (.ldVM 7) := by decide

theorem test_decode_draw : decodeTableWord 16 0b1101000100101111 = some (.drw 1 2 15) := by decide

theorem test_decode_keys_timers : decodeTableWord 16 0b1110100110011110 = some (.skp 9) ∧
    decodeTableWord 16 0b1110100110100001 = some (.sknp 9) ∧
    decodeTableWord 16 0b1111100100000111 = some (.ldVDT 9) ∧
    decodeTableWord 16 0b1111100100001010 = some (.ldVK 9) ∧
    decodeTableWord 16 0b1111100100010101 = some (.ldDTV 9) ∧
    decodeTableWord 16 0b1111100100011000 = some (.ldSTV 9) := by decide

/-- Vectors D-1 to D-10. -/
theorem test_decode_rejects : ∀ w ∈ [0x0000, 0x0123, 0x01E0, 0x5121, 0x9121, 0x8128, 0xE19F, 0xF1FF, 0xF000, 0x00FF],
    decodeTableWord 16 w = none ∧ stops (step (at200 w)) (.unrecognizedOpcode (BitVec.ofNat 16 w)) = true := by decide

/-- A lone byte is no instruction (R70). -/
theorem test_decode_truncated : decode ironchip [0x60] = .error .truncated := rfl

/-! ### Well-formedness -/

/-- The one ill-formed shape: a sprite of more than 15 rows (R72). -/
theorem test_wellFormed_refuses_tall_sprite : Instr.wellFormed (.drw 0 0 16) = false ∧
    Instr.wellFormed (.drw 0 0 15) = true ∧ Instr.wellFormed (.drw 0 0 0) = true := by decide

/-! ### Control flow (vectors W and C) -/

/-- W1. -/
theorem test_jp : leads (step (at200 0x1321)) (fun t => t.PC == 0x321) = true := by decide

/-- C-5: targets below 2. -/
theorem test_jp_zero : leads (step (at200 0x1000)) (fun t => t.PC == 0x000) = true ∧
    leads (step (at200 0x1001)) (fun t => t.PC == 0x001) = true := by decide

/-- C-2. -/
theorem test_call : leads (step ((at200 0x2300).setSP 14))
    (fun t => t.SP == 15 && t.slot 15 == 0x200 && t.PC == 0x300) = true := by decide

/-- C-1. -/
theorem test_call_overflow : stops (step ((at200 0x2300).setSP 15)) (.spOutOfBounds 16) = true := by decide

/-- C-4. -/
theorem test_ret : leads (step ((((at200 0x00EE).setSP 2).setSlot 2 0x350).setSlot 1 0x240))
    (fun t => t.PC == 0x352 && t.SP == 1 && t.slot 2 == 0x350) = true := by decide

/-- C-3. -/
theorem test_ret_underflow : stops (step (at200 0x00EE)) (.spOutOfBounds 0) = true := by decide

/-- C-9 and C-8: VF is an ordinary operand; a skip at 0xFFC leaves PC at 0x1000. -/
theorem test_seVB : leads (step (withRegs [(15, 7)] (at200 0x3F07))) (fun t => t.PC == 0x204) = true ∧
    leads (step ((State.reset.setPC 0xFFC).withFetchWord 16 0x3000)) (fun t => t.PC == 0x1000) = true := by decide

/-- C-10. -/
theorem test_sneVB : leads (step (withRegs [(3, 0x42)] (at200 0x4342))) (fun t => t.PC == 0x202) = true ∧
    leads (step (at200 0x4342)) (fun t => t.PC == 0x204) = true := by decide

/-- C-11. -/
theorem test_seVV_sneVV_same : leads (step (withRegs [(5, 9)] (at200 0x5550))) (fun t => t.PC == 0x204) = true ∧
    leads (step (withRegs [(5, 9)] (at200 0x9550))) (fun t => t.PC == 0x202) = true := by decide

/-- W5, predicate on two different registers. -/
theorem test_seVV_sneVV_differ : leads (step (withRegs [(1, 1)] (at200 0x5120))) (fun t => t.PC == 0x202) = true ∧
    leads (step (withRegs [(1, 1)] (at200 0x9120))) (fun t => t.PC == 0x204) = true := by decide

/-- C-7 and C-6: the sum is not masked. -/
theorem test_jpV0 : leads (step (withRegs [(0, 0x10)] (at200 0xB300))) (fun t => t.PC == 0x310) = true ∧
    leads (step (withRegs [(0, 0xFF)] (at200 0xBFFF))) (fun t => t.PC == 0x10FE) = true := by decide

/-! ### Arithmetic (vectors A) -/

/-- A-21. -/
theorem test_ldVB : leads (step (at200 0x6AFF)) (fun t => t.reg 10 == 0xFF && t.PC == 0x202) = true := by decide

/-- A-16. -/
theorem test_addVB : leads (step (withRegs [(0, 0xFF), (15, 7)] (at200 0x7001)))
    (fun t => t.reg 0 == 0x00 && t.reg 15 == 7) = true := by decide

/-- A-20. -/
theorem test_ldVV : leads (step (withRegs [(0, 1), (1, 0x5A)] (at200 0x8010)))
    (fun t => t.reg 0 == 0x5A && t.reg 1 == 0x5A) = true := by decide

/-- A-17. -/
theorem test_orVV : leads (step (withRegs [(0, 0xF0), (1, 0x0F), (15, 7)] (at200 0x8011)))
    (fun t => t.reg 0 == 0xFF && t.reg 15 == 7) = true := by decide

/-- A-18. -/
theorem test_andVV : leads (step (withRegs [(0, 0xF0), (1, 0x3C)] (at200 0x8012))) (fun t => t.reg 0 == 0x30) = true := by
  decide

/-- A-19. -/
theorem test_xorVV : leads (step (withRegs [(0, 0xF0), (1, 0x3C)] (at200 0x8013))) (fun t => t.reg 0 == 0xCC) = true := by
  decide

/-- A-1 and A-2. -/
theorem test_addVV : leads (step (withRegs [(0, 0xFF), (1, 1)] (at200 0x8014)))
      (fun t => t.reg 0 == 0 && t.reg 15 == 1) = true ∧
    leads (step (withRegs [(0, 0xFF), (15, 1)] (at200 0x8014))) (fun t => t.reg 0 == 0xFF && t.reg 15 == 0) = true := by
  decide

/-- A-10: the flag wins. -/
theorem test_addVV_flag_last : leads (step (withRegs [(15, 0xFF), (1, 1)] (at200 0x8F14))) (fun t => t.reg 15 == 1) = true := by
  decide

/-- A-3 and A-4. -/
theorem test_sub : leads (step (withRegs [(0, 5), (1, 5)] (at200 0x8015)))
      (fun t => t.reg 0 == 0 && t.reg 15 == 1) = true ∧
    leads (step (withRegs [(0, 4), (1, 5)] (at200 0x8015))) (fun t => t.reg 0 == 0xFF && t.reg 15 == 0) = true := by decide

/-- A-15 and A-11: VF as an operand. -/
theorem test_sub_vf : leads (step (withRegs [(1, 5), (15, 3)] (at200 0x81F5)))
      (fun t => t.reg 1 == 2 && t.reg 15 == 1) = true ∧
    leads (step (withRegs [(15, 0x10), (1, 0x20)] (at200 0x8F15))) (fun t => t.reg 15 == 0) = true := by decide

/-- A-7 and A-13. -/
theorem test_shr : leads (step (withRegs [(0, 1)] (at200 0x8016))) (fun t => t.reg 0 == 0 && t.reg 15 == 1) = true ∧
    leads (step (withRegs [(15, 3)] (at200 0x8F16))) (fun t => t.reg 15 == 1) = true := by decide

/-- A-5 and A-6. -/
theorem test_subn : leads (step (withRegs [(0, 5), (1, 4)] (at200 0x8017)))
      (fun t => t.reg 0 == 0xFF && t.reg 15 == 0) = true ∧
    leads (step (withRegs [(0, 4), (1, 5)] (at200 0x8017))) (fun t => t.reg 0 == 1 && t.reg 15 == 1) = true := by decide

/-- A-8 and A-9: V1 is ignored. -/
theorem test_shl : leads (step (withRegs [(0, 0x80)] (at200 0x800E))) (fun t => t.reg 0 == 0 && t.reg 15 == 1) = true ∧
    leads (step (withRegs [(0, 0x41), (1, 0xFF)] (at200 0x801E))) (fun t => t.reg 0 == 0x82 && t.reg 15 == 0) = true := by
  decide

/-- A-22 and A-23, with the value the vector says the input offers. -/
theorem test_rnd : leads (retire (rndEffectWith 0xAB 3 0x0F State.reset)) (fun t => t.reg 3 == 0x0B) = true ∧
    leads (retire (rndEffectWith 0xAB 3 0x00 State.reset)) (fun t => t.reg 3 == 0 && t.rndTaken == 1) = true := by decide

/-! ### FLAG_LAST = false (vectors A-10 to A-14) -/

/-- The other reading of D15. -/
def flagFirst : Config := { ironchip with flagLast := false }

theorem test_flag_first : leads (retire (addVVEffect flagFirst 15 1 (withRegs [(15, 0xFF), (1, 1)] State.reset)))
      (fun t => t.reg 15 == 0) = true ∧
    leads (retire (subEffect flagFirst 15 1 (withRegs [(15, 0x10), (1, 0x20)] State.reset)))
      (fun t => t.reg 15 == 0xF0) = true ∧
    leads (retire (subnEffect flagFirst 15 1 (withRegs [(15, 0x10), (1, 0x20)] State.reset)))
      (fun t => t.reg 15 == 0x10) = true ∧
    leads (retire (shrEffect flagFirst 15 1 (withRegs [(15, 3)] State.reset))) (fun t => t.reg 15 == 0) = true ∧
    leads (retire (shlEffect flagFirst 15 1 (withRegs [(15, 0x81)] State.reset))) (fun t => t.reg 15 == 2) = true := by
  decide

/-! ### Index and memory (vectors M) -/

/-- M-1. -/
theorem test_ldI : leads (step (at200 0xA123)) (fun t => t.I == 0x123) = true := by decide

/-- M-2 and M-3. -/
theorem test_addIV : leads (step ((withRegs [(0, 1), (15, 9)] (at200 0xF01E)).setI 0xFFF))
      (fun t => t.I == 0x1000 && t.reg 15 == 9) = true ∧
    leads (step ((withRegs [(0, 2)] (at200 0xF01E)).setI 0xFFFF)) (fun t => t.I == 1) = true := by decide

/-- M-4 and M-5. -/
theorem test_ldFV : leads (step (withRegs [(0, 0xA)] (at200 0xF029))) (fun t => t.I == 0x082) = true ∧
    leads (step (withRegs [(0, 0x10)] (at200 0xF029))) (fun t => t.I == 0x0A0) = true ∧
    leads (retire (ldFVEffect { ironchip with fx29Mask := true } 0 (withRegs [(0, 0x10)] State.reset)))
      (fun t => t.I == 0x050) = true := by decide

/-- M-7 and M-8. -/
theorem test_ldBV : leads (step ((withRegs [(0, 255)] (at200 0xF033)).setI 0x300))
      (fun t => t.M.read 0x300 == 2 && t.M.read 0x301 == 5 && t.M.read 0x302 == 5) = true ∧
    leads (step ((withRegs [(0, 128)] (at200 0xF033)).setI 0xFFD))
      (fun t => t.M.read 0xFFD == 1 && t.M.read 0xFFE == 2 && t.M.read 0xFFF == 8) = true := by decide

/-- M-9 and the second half of M-2. -/
theorem test_ldBV_past_end :
    stops (step ((withRegs [(0, 128)] (at200 0xF033)).setI 0xFFE)) (.execAddrOutOfBounds 0x1000) = true ∧
    stops (step ((at200 0xF033).setI 0x1000)) (.execAddrOutOfBounds 0x1000) = true := by decide

/-- M-10, with V0 and VF set, and M-13. -/
theorem test_ldMV : leads (step ((withRegs [(0, 1), (15, 0x10)] (at200 0xFF55)).setI 0xFF0))
      (fun t => t.M.read 0xFF0 == 1 && t.M.read 0xFFF == 0x10 && t.I == 0xFF0) = true ∧
    leads (step ((at200 0xF055).setI 0x050)) (fun t => t.M.read 0x050 == 0) = true := by decide

/-- M-11. -/
theorem test_ldMV_past_end : stops (step ((at200 0xFF55).setI 0xFF1)) (.execAddrOutOfBounds 0x1000) = true := by decide

/-- M-12, its ends. -/
theorem test_ldVM : leads (step ((withBytes 0x300 ((List.range 16).map (fun i => BitVec.ofNat 8 (0x10 + i)))
      (at200 0xFF65)).setI 0x300))
      (fun t => t.reg 0 == 0x10 && t.reg 7 == 0x17 && t.reg 15 == 0x1F && t.I == 0x300) = true := by decide

/-- Fx65 loads x + 1 registers and no more (R198). -/
theorem test_ldVM_inclusive : leads (step ((withBytes 0x300 [1, 2, 3, 4] (withRegs [(3, 0x55)] (at200 0xF265))).setI 0x300))
    (fun t => t.reg 2 == 3 && t.reg 3 == 0x55) = true := by decide

/-! ### Display (vectors G) -/

/-- G-1. -/
theorem test_cls : leads (step (withRegs [(15, 3)] ((at200 0x00E0).setFB (Screen.clear.setPixel 31 63 true))))
    (fun t => t.FB.pixel 31 63 == false && t.FB.pixel 0 0 == false && t.reg 15 == 3) = true := by decide

/-- G-3: the origin wraps. -/
theorem test_drw_origin : leads (step (withBytes 0x300 [0x80] ((withRegs [(0, 67), (1, 33)] (at200 0xD011)).setI 0x300)))
    (fun t => t.FB.pixel 1 3 && !t.FB.pixel 1 2 && !t.FB.pixel 1 4 && !t.FB.pixel 0 3 && !t.FB.pixel 31 63 && t.reg 15 == 0) =
      true := by decide

/-- G-7: collision. G-5: a clipped row is checked too. -/
theorem test_drw_collision_and_check :
    leads (step (withBytes 0x300 [0xFF] (((at200 0xD001).setFB (Screen.clear.setPixel 0 3 true)).setI 0x300)))
      (fun t => t.FB.pixel 0 3 == false && t.FB.pixel 0 0 == true && t.FB.pixel 0 7 == true && t.reg 15 == 1) = true ∧
    stops (step ((withRegs [(1, 31)] (at200 0xD012)).setI 0xFFF)) (.execAddrOutOfBounds 0x1000) = true := by decide

/-! ### Keypad and timers (vectors K) -/

/-- W9's first step (K[5] pressed, V2 = 5) and K-1. -/
theorem test_skp : leads (step (withRegs [(2, 5)] ((at200 0xE29E).setKey 5 true))) (fun t => t.PC == 0x204) = true ∧
    stops (step (withRegs [(0, 16)] (at200 0xE09E))) (.keyOutOfBounds 16) = true := by decide

/-- K-2 and K-3. -/
theorem test_sknp : leads (step (withRegs [(0, 3)] (at200 0xE0A1))) (fun t => t.PC == 0x204) = true ∧
    leads (step (withRegs [(0, 3)] ((at200 0xE0A1).setKey 3 true))) (fun t => t.PC == 0x202) = true := by decide

/-- K-6. -/
theorem test_ldVDT : leads (step ((at200 0xF107).setDT 0x3C)) (fun t => t.reg 1 == 0x3C && t.DT == 0x3C) = true := by decide

/-- K-4. -/
theorem test_ldVK : leads (step (((at200 0xFF0A).setKey 9 true).setKey 3 true)) (fun t => t.reg 15 == 3 && t.PC == 0x202) = true := by
  decide

/-- K-5. -/
theorem test_ldVK_blocked : leads (step (withRegs [(3, 0x44)] (at200 0xF30A))) (fun t => t.PC == 0x200 && t.reg 3 == 0x44) = true := by
  decide

/-- R233. -/
theorem test_ldDTV : leads (step (withRegs [(0, 3)] (at200 0xF015))) (fun t => t.DT == 3 && t.ST == 0) = true := by decide

/-- K-7: the step, then the tick of frame(0). -/
theorem test_ldSTV : leads (step (withRegs [(0, 1)] (at200 0xF018)))
    (fun t => t.ST == 1 && t.buzzer && (tick t).ST == 0 && !(tick t).buzzer) = true := by decide

/-! ### Steps, frames and commands (vectors S, F, H, W13) -/

/-- S-1, S-2, S-4: the last word of memory, the fetch bound, an odd PC. -/
theorem test_step_bounds : leads (step ((State.reset.setPC 0xFFE).withFetchWord 16 0x6012))
      (fun t => t.reg 0 == 0x12 && t.PC == 0x1000) = true ∧
    stops (step (State.reset.setPC 0x1000)) (.pcOutOfBounds 0x1000) = true ∧
    stops (step (State.reset.setPC 0xFFF)) (.pcOutOfBounds 0xFFF) = true ∧
    leads (step ((State.reset.setPC 0x201).withFetchWord 16 0x6077)) (fun t => t.reg 0 == 0x77 && t.PC == 0x203) = true := by
  decide

/-- S-5. -/
theorem test_step_from_reset : stops (step State.reset) (.unrecognizedOpcode 0) = true := by decide

/-- F-1: the tick, whatever n is. -/
theorem test_frame_zero : frame 0 ((State.reset.setDT 5).setST 1) = .ok ((State.reset.setDT 4).setST 0) := by decide

/-- F-3's stop after a draw, on its first word. -/
theorem test_frame_stops_after_draw : (match frame 10 (at200 0xD000) with | .ok t => t.PC == 0x202 | _ => false) = true := by
  decide

/-- F-4 shortened to its failing step: the tick is kept. -/
theorem test_frame_error_keeps_tick :
    frame 5 (State.reset.setDT 2) = .err (.unrecognizedOpcode 0) (State.reset.setDT 1) := by decide

/-- H-1 to H-7 and S-3. -/
theorem test_debug_errors : dbgGetCommand (.mem 0x1000) State.reset = .done State.reset (.err (.addrOutOfBounds 0x1000)) ∧
    dbgSetCommand (.reg 16 0) State.reset = .done State.reset (.err (.noRegister 16)) ∧
    dbgGetCommand (.pixel 64 0) State.reset = .done State.reset (.err (.noPixel 64 0)) ∧
    dbgSetCommand (.index 0x1000) State.reset = .done State.reset (.err (.indexTooBig 0x1000)) ∧
    dbgSetCommand (.sp 16) State.reset = .done State.reset (.err (.spOutOfBounds 16)) ∧
    dbgGetCommand (.slot 16) State.reset = .done State.reset (.err (.stackAddrOutOfBounds 16)) ∧
    dbgSetCommand (.slot 3 0x1000) State.reset = .done State.reset (.err (.stackAddrOutOfBounds 0x1000)) ∧
    dbgGetCommand (.key 16) State.reset = .done State.reset (.err (.keyOutOfBounds 16)) ∧
    dbgSetCommand (.pc 0x1000) State.reset = .done State.reset (.err (.pcOutOfBounds 0x1000)) := by decide

/-- H-8. -/
theorem test_load_rom_over_rom : command (.loadRom [0xAA, 0xBB]) (withBytes 0x200 [0x11, 0x22, 0x33, 0x44] State.reset) =
    .done (withBytes 0x200 [0xAA, 0xBB, 0x33, 0x44] State.reset) .ok := by decide

/-- K-8. -/
theorem test_key_outside_contract : command (.keyDown 16) State.reset = .refused (.keyOutsideContract 16) := by decide

/-- W14 and R33: the font after reset, its first and last byte and their neighbours. -/
theorem test_reset_font : State.reset.M.read 0x050 = 0xF0 ∧ State.reset.M.read 0x09F = 0x80 ∧
    State.reset.M.read 0x04F = 0 ∧ State.reset.M.read 0x0A0 = 0 := by decide

/-! ### Witnesses: states and operands that meet a statement's hypotheses together, at the ends of each clause -/

/-- O2: the widest fields. -/
theorem witness_DecodingEncodedInstructionGivesItBack : Instr.WellFormed (.drw 15 15 15) ∧ Instr.WellFormed (.jp 0xFFF) ∧
    Instr.WellFormed (.seVB 15 0xFF) ∧ Instr.WellFormed .cls := by decide

/-- O3. -/
theorem witness_EncodingDecodedWordGivesItBack : decodeWord ironchip 0xDFFF = some (.drw 15 15 15) ∧
    decodeWord ironchip 0x00E0 = some .cls := by decide

/-- O5. -/
theorem witness_OpcodeTableRowsAreDisjointAndDecide : (⟨"CLS", 0x00E0, 0xFFFF⟩ : OpcodeRow) ∈ opcodeTable ∧
    OpcodeRow.matches ⟨"CLS", 0x00E0, 0xFFFF⟩ 0x00E0 = true := by decide

/-- Both decoding parameters at their other value. -/
def lenient : Config := { ironchip with decode0Strict := false, decode59Strict := false }

/-- O6. -/
theorem witness_LenientParametersOnlyAddWords : lenient.decode0Strict = false ∧ lenient.decode59Strict = false ∧
    decodeWord ironchip 0x5120 = some (.seVV 1 2) := by decide

/-- The last word of memory, holding 6012. -/
def lastWord : State := (State.reset.setPC 0xFFE).withFetchWord 16 0x6012

/-- O7, at the highest address a fetch accepts. -/
theorem witness_StepRunsTheDecodedInstruction : lastWord.PC.toNat ≤ 0xFFE ∧
    decode ironchip [lastWord.M.read lastWord.PC.toNat, lastWord.M.read (lastWord.PC.toNat + 1)] = .ok (.ldVB 0 0x12, []) ∧
    ∃ t, exec (.ldVB 0 0x12) lastWord = .next t :=
  ⟨by decide, by rfl, _, rfl⟩

/-- O8: PC on both sides of the fetch bound, an unrecognized word, an erring and a completing instruction. -/
theorem witness_StepFollowsThePseudocode : (State.reset.setPC 0xFFF).PC.toNat > 0xFFE ∧ lastWord.PC.toNat ≤ 0xFFE ∧
    decodeWord ironchip 0x0000 = none ∧ decodeWord ironchip 0x00EE = some .ret ∧
    executePhase ironchip .ret (at200 0x00EE) = .error (.spOutOfBounds 0) ∧
    ∃ u, executePhase ironchip (.ldVB 0 0x12) lastWord = .ok u :=
  ⟨by decide, by decide, by decide, by decide, rfl, _, rfl⟩

/-- O9. -/
theorem witness_UnrecognizedWordRaisesInDecode : State.reset.PC.toNat ≤ 0xFFE ∧
    (0x0000 : Word) = State.reset.M.read State.reset.PC.toNat ++ State.reset.M.read (State.reset.PC.toNat + 1) ∧
    decodeWord ironchip 0x0000 = none := by decide

/-- O10: a step that completes, and errors in each of the three phases. -/
theorem witness_StepFsmReachesTheStepsResult : (∃ t, stepResult lastWord = .ok 0x6012 t) ∧
    stepResult (State.reset.setPC 0xFFF) = .err (.pcOutOfBounds 0xFFF) ∧
    stepResult State.reset = .err (.unrecognizedOpcode 0) ∧ stepResult (at200 0x00EE) = .err (.spOutOfBounds 0) :=
  ⟨⟨_, rfl⟩, by decide, by decide, by decide⟩

/-- O12, second clause: from just below the end of memory, and from above it. -/
theorem witness_InstructionErrorsHaveTheirOneCause : (State.reset.setI 0xFFE).I.toNat + 2 > 0xFFF ∧
    (State.reset.setI 0xFFFF).I.toNat + 0 > 0xFFF := by decide

/-- O13: an error of a command other than FRAME, and of FRAME. -/
theorem witness_ErrorsLeaveTheStateUnchanged :
    command .step State.reset = .done State.reset (.err (.unrecognizedOpcode 0)) ∧
    command (.frame 1) State.reset = .done State.reset (.err (.unrecognizedOpcode 0)) := by decide

/-- O15: the last call that fits and the first that does not. -/
theorem witness_CallPushesItsAddressAndJumps : (State.reset.setSP 14).SP.val + 1 < 16 ∧
    (State.reset.setSP 15).SP.val = 15 := by decide

/-- O16: SP on both sides of the bound. -/
theorem witness_ReturnGoesPastTheCallAndPops : (State.reset.setSP 1).SP.val ≠ 0 ∧ State.reset.SP.val = 0 := by decide

/-- O17: all fifteen levels. -/
theorem witness_NestedCallsReturnBehindTheFirstCall : List.replicate 15 (0x300 : BitVec 12) ≠ [] ∧
    State.reset.SP.val + (List.replicate 15 (0x300 : BitVec 12)).length ≤ 15 := by decide

/-- O18: fifteen calls and sixteen. -/
theorem witness_SixteenthNestedCallOverflows : State.reset.SP.val = 0 ∧
    (List.replicate 15 (0x300 : BitVec 12)).length ≤ 15 ∧ (List.replicate 16 (0x300 : BitVec 12)).length = 16 := by decide

/-- O21: the last key and the first value that is none. -/
theorem witness_SkipsOnKey : (withRegs [(2, 15)] State.reset).V[(2 : Reg)].toNat = (15 : Fin 16).val ∧
    (withRegs [(2, 16)] State.reset).V[(2 : Reg)].toNat > 15 := by decide

/-- O26. -/
theorem witness_FlagWriteOrderUnderBothReadings : (14 : Reg) ≠ 15 ∧ flagFirst.flagLast = false := by decide

/-- O30: the last address with room for three bytes. -/
theorem witness_BcdStoresThreeDigits : (State.reset.setI 0xFFD).I.toNat + 2 ≤ 0xFFF ∧
    ((0xFFC : Nat) < dataAddr (State.reset.setI 0xFFD) 0 ∧ dataAddr (State.reset.setI 0xFFD) 0 + 3 ≤ 0x1000) := by decide

/-- O31. -/
theorem witness_BulkStoreWritesV0ToVx : (State.reset.setI 0xFF0).I.toNat + (15 : Reg).val ≤ 0xFFF ∧
    (15 : Reg) ≤ 15 ∧ (0xFEF : Nat) < dataAddr (State.reset.setI 0xFF0) 0 := by decide

/-- O32. -/
theorem witness_BulkLoadReadsV0ToVx : (State.reset.setI 0xFFF).I.toNat + (0 : Reg).val ≤ 0xFFF ∧
    (0 : Reg) ≤ 0 ∧ (0 : Reg) < 1 := by decide

/-- O33. -/
theorem witness_StoreThenLoadRestoresTheRegisters : ∃ t, exec (.ldMV 15) (State.reset.setI 0xFF0) = .next t :=
  ⟨_, rfl⟩

/-- O34: the two stored bytes are the last word of memory. -/
theorem witness_StoredBytesAreFetchedNext : ∃ t u : State, exec (.ldMV 1) (State.reset.setI 0xFFE) = .next t ∧ 1 ≤ (1 : Reg).val ∧
    u.M = t.M ∧ u.PC = (State.reset.setI 0xFFE).I :=
  ⟨_, State.setPC _ 0xFFE, rfl, by decide, rfl, rfl⟩

/-- A dark screen but for one pixel, and a sprite row that covers it. -/
def onePixel : State := withBytes 0x300 [0xFF] ((State.reset.setFB (Screen.clear.setPixel 0 3 true)).setI 0x300)

/-- O36: heights 15 and 0, the last sprite that fits; a collision, and a draw without one. -/
theorem witness_DrawIsClippedXorWithCollision : 15 < 16 ∧ (State.reset.setI 0xFF1).I.toNat + (15 - 1) ≤ 0xFFF ∧
    ((0 : Nat) = 0 ∨ (State.reset.setI 0xFFFF).I.toNat + (0 - 1) ≤ 0xFFF) ∧
    (∃ (py : Fin 32) (px : Fin 64),
      (onePixel.V[(1 : Reg)].toNat % 32 ≤ py.val ∧ py.val < onePixel.V[(1 : Reg)].toNat % 32 + 1 ∧
        onePixel.V[(0 : Reg)].toNat % 64 ≤ px.val ∧ px.val < onePixel.V[(0 : Reg)].toNat % 64 + 8 ∧
        (onePixel.M.read (onePixel.I.toNat + (py.val - onePixel.V[(1 : Reg)].toNat % 32))).getLsbD
          (7 - (px.val - onePixel.V[(0 : Reg)].toNat % 64)) = true) ∧ onePixel.FB[py][px] = true) ∧
    (∀ (py : Fin 32) (px : Fin 64), State.reset.FB[py][px] = false) :=
  ⟨by decide, by decide, Or.inl rfl, ⟨0, 3, by decide⟩, fun py px => by simp [State.reset]⟩

/-- O37: the glyph 0 drawn on a dark screen lights a pixel; a draw of height 0 lights none. -/
theorem witness_DrawingTwiceRestoresTheScreen :
    (∀ (j : Fin 32) (i : Fin 64), (State.reset.setI 0x050).FB[j][i] = false) ∧
    (∃ t, exec (.drw 0 0 1) (State.reset.setI 0x050) = .next t ∧
      t.V[(1 : Reg)].toNat % 64 = (State.reset.setI 0x050).V[(0 : Reg)].toNat % 64 ∧
      t.V[(2 : Reg)].toNat % 32 = (State.reset.setI 0x050).V[(0 : Reg)].toNat % 32 ∧
      ∃ (j : Fin 32) (i : Fin 64), t.FB[j][i] = true) ∧
    (∃ t, exec (.drw 0 0 0) (State.reset.setI 0x050) = .next t ∧ ∀ (j : Fin 32) (i : Fin 64), t.FB[j][i] = false) :=
  ⟨fun j i => by simp [State.reset, State.setI], ⟨_, rfl, by decide, by decide, 0, 0, by decide⟩,
    ⟨_, rfl, fun j i => by simp [State.reset, State.setFB, State.setReg, State.setI, State.advance, State.setPC, drawSprite]⟩⟩

/-- O38: an instruction other than Fx15 that completes. -/
theorem witness_DelayTimerMoves : (∃ t, exec (.ldSTV 3) State.reset = .next t) ∧ ∀ z, Instr.ldSTV 3 ≠ .ldDTV z :=
  ⟨⟨_, rfl⟩, by decide⟩

/-- O39: ST about to run out, an instruction that completes, one that stops. -/
theorem witness_SoundTimerIsWrittenAndNeverRead : (withRegs [(3, 1)] State.reset).V[(3 : Reg)] = 1 ∧
    (∃ t, exec (.ldVDT 3) State.reset = .next t) ∧ exec .ret State.reset = .fault (.spOutOfBounds 0) :=
  ⟨by decide, ⟨_, rfl⟩, rfl⟩

/-- O40: no key, and the highest key alone. -/
theorem witness_KeyWaitRepeatsOrTakesTheLowestKey : (∀ k : Fin 16, State.reset.K[k] = false) ∧
    (State.reset.setKey 15 true).K[(15 : Fin 16)] = true ∧ ∀ j : Fin 16, j < 15 → (State.reset.setKey 15 true).K[j] = false := by
  decide

/-- O41: a register beside a load's last one, and VF beside a draw. -/
theorem witness_RegistersOutsideTheWriterTableAreKept : (∃ t, exec (.ldVM 14) State.reset = .next t) ∧
    ¬ MayWriteReg (.ldVM 14) 15 ∧ ¬ MayWriteReg (.drw 0 0 0) 14 :=
  ⟨⟨_, rfl⟩, by simp only [MayWriteReg]; decide, by simp only [MayWriteReg]; decide⟩

/-- O42: the byte before the stored ones and the byte behind them. -/
theorem witness_MemoryIsWrittenOnlyByBcdAndBulkStore : (∃ t, exec (.ldBV 0) (State.reset.setI 0x300) = .next t) ∧
    (∀ x : Reg, Instr.ldBV 0 = .ldBV x → ∀ a : Nat, a = dataAddr (State.reset.setI 0x300) 0 → 0x303 < a ∨ a + 3 ≤ 0x303) ∧
    (∀ x : Reg, Instr.ldMV 2 = .ldMV x → ∀ a : Nat, a = dataAddr (State.reset.setI 0x300) 0 →
      0x2FF < a ∨ a + (x.val + 1) ≤ 0x2FF) :=
  ⟨⟨_, rfl⟩, fun _ _ a ha => Or.inr (by subst ha; decide), fun _ _ a ha => Or.inl (by subst ha; decide)⟩

/-- O43: a step, and a call that fills the last slot. -/
theorem witness_StepsKeepKeysTimersAndUnnamedSlots : (∃ t, step lastWord = .next t) ∧
    ∃ t, exec (.call 0x300) (State.reset.setSP 14) = .next t :=
  ⟨⟨_, rfl⟩, _, rfl⟩

/-- O44. -/
theorem witness_IndexStackPointerAndScreenWriters : ∃ t, exec (.rnd 3 0x0F) State.reset = .next t :=
  ⟨_, rfl⟩

/-- O45. -/
theorem witness_ProgramCounterAfterEachInstruction : (∃ t, exec (.jpV0 0xFFF) State.reset = .next t) ∧
    ∃ t, exec (.skp 2) (withRegs [(2, 15)] State.reset) = .next t :=
  ⟨⟨_, rfl⟩, _, rfl⟩

/-- O47: the invariant at a state whose step completes at the end of memory. -/
theorem witness_StepKeepsTheInvariant : Inv lastWord ∧ ∃ t, step lastWord = .next t :=
  ⟨⟨by decide, by decide, by decide⟩, _, rfl⟩

/-- O48: a debug write of the highest PC it accepts. -/
theorem witness_EveryCommandKeepsTheInvariant : Inv lastWord ∧
    command (.dbgSet (.pc 0xFFF)) lastWord = .done (lastWord.setPC 0xFFF) .ok :=
  ⟨⟨by decide, by decide, by decide⟩, rfl⟩

/-- O49: a program loaded and one step of it run. -/
theorem witness_ReachableStatesSatisfyTheInvariant :
    ∃ s, runCommands [.loadRom [0x60, 0x12], .step] State.reset = some s :=
  ⟨_, rfl⟩

/-- O51: F00A at the start of the program, no key pressed. -/
theorem witness_BlockedKeyWaitUsesTheWholeFrame : (at200 0xF00A).PC.toNat ≤ 0xFFE ∧
    ((at200 0xF00A).M.read (at200 0xF00A).PC.toNat ++ (at200 0xF00A).M.read ((at200 0xF00A).PC.toNat + 1) : Word) =
      0xF#4 ++ (BitVec.ofNat 4 (0 : Reg).val ++ 0x0A#8) ∧ ∀ k : Fin 16, (at200 0xF00A).K[k] = false := by decide

/-- O52: the largest program and the smallest that is too big. -/
theorem witness_LoadRomCopiesAndKeepsTheRest : (List.replicate 0xE00 (0x60 : Byte)).length ≤ 0xE00 ∧
    (List.replicate 0xE01 (0x60 : Byte)).length > 0xE00 := by
  simp only [List.length_replicate]
  decide

/-- O53. -/
theorem witness_KeyEventsSetOneKey : 15 < 16 ∧ 16 > 15 := by decide

/-- O54: the last byte of memory, and its neighbour. -/
theorem witness_DebugSetWritesExactlyItsField : (∃ t, dbgSet (.mem 0xFFF 0x12) State.reset = .ok t) ∧
    DbgField.mem 0xFFE ≠ (DbgWrite.mem 0xFFF 0x12).field :=
  ⟨⟨_, rfl⟩, by decide⟩

/-- O55: the first values out of range of each clause. -/
theorem witness_DebugErrorsFollowTheFieldTable : 0x1000 > 0xFFF ∧ 16 > 15 ∧ (64 > 63 ∨ 0 > 31) ∧ (63 > 63 ∨ 32 > 31) ∧
    (0x1000 : Word).toNat > 0xFFF ∧ 15 ≤ 15 := by decide

/-- O56: an error of each command that can return one. -/
theorem witness_ErrorCodesByCommand : command .step State.reset = .done State.reset (.err (.unrecognizedOpcode 0)) ∧
    command (.frame 1) State.reset = .done State.reset (.err (.unrecognizedOpcode 0)) ∧
    command (.loadRom (List.replicate 0xE01 0x60)) State.reset = .done State.reset (.err (.romTooBig 0xE01)) ∧
    command (.dbgGet (.mem 0x1000)) State.reset = .done State.reset (.err (.addrOutOfBounds 0x1000)) ∧
    command (.dbgSet (.index 0x1000)) State.reset = .done State.reset (.err (.indexTooBig 0x1000)) :=
  ⟨by decide, by decide, by simp only [command, loadRom, List.length_replicate]; rw [if_pos (by decide)],
    by decide, by decide⟩

/-- O57 and O58: the first and the last byte of the font, its neighbours, and the highest place R53 allows the font. -/
theorem witness_ResetUnderEveryFontParameter : ironchip.Ok ∧ Config.Ok { ironchip with fontBase := 0x1B0 } ∧
    (0 < 80 ∧ 79 < 80) ∧ ((0x04F : Nat) < 0x050 ∧ (0x0A0 : Nat) ≤ 0x0A0) := by decide

/-- O59: a parameter that changes an instruction. -/
theorem witness_ParameterisedMachineAgreesAtTheDefaults :
    executePhase { ironchip with fontBase := 0 } (.ldFV 0) State.reset ≠ executePhase ironchip (.ldFV 0) State.reset := by
  decide

/-- O60: the last pixel. -/
theorem witness_OutputsFollowTheState : (2047 : Fin 2048).val = (31 : Fin 32).val * 64 + (63 : Fin 64).val := by decide

end Sys2Proof.Tests
end

section
/-! PROOF. The parameters of spec/00_scope.md R8: the parameterised step and frame at the defaults, and which
instructions' EXECUTE reads a parameter at all. -/

namespace Sys2Proof.Machine

/-- R107 reads its parameters in DECODE and EXECUTE only, and `exec` is EXECUTE and ADVANCE at the defaults. -/
theorem stepUnder_ironchip (s : State) : stepUnder ironchip s = stepResult s := by
  cases hf : fetch s with
  | error e => simp only [stepUnder, stepResult, hf]
  | ok op =>
    cases hd : decodePhase ironchip op with
    | error e => simp only [stepUnder, stepResult, hf, hd]
    | ok i => simp only [stepUnder, stepResult, hf, hd, exec_eq_retire]

/-- The tick and the loop of R124 have no parameter of their own: only the step inside the loop does. -/
theorem frameUnder_ironchip (n : Nat) (s : State) : frameUnder ironchip n s = frame n s := by
  have hstep : stepUnder ironchip = stepResult := funext stepUnder_ironchip
  rw [frameUnder, frame, hstep]

/-- EXECUTE reads FLAG_LAST in the five flag instructions (R170), and FX29_MASK and FONT_BASE in Fx29 (R192); every other
arm ignores the parameters. -/
theorem executePhase_eq_ironchip_or_reads_parameter (c : Config) (i : Instr) (s : State) :
    executePhase c i s = executePhase ironchip i s ∨
      (∃ x y, i = .addVV x y ∨ i = .sub x y ∨ i = .subn x y ∨ i = .shr x y ∨ i = .shl x y) ∨ ∃ x, i = .ldFV x := by
  cases i with
  | addVV x y => exact .inr (.inl ⟨x, y, by simp⟩)
  | sub x y => exact .inr (.inl ⟨x, y, by simp⟩)
  | subn x y => exact .inr (.inl ⟨x, y, by simp⟩)
  | shr x y => exact .inr (.inl ⟨x, y, by simp⟩)
  | shl x y => exact .inr (.inl ⟨x, y, by simp⟩)
  | ldFV x => exact .inr (.inr ⟨x, rfl⟩)
  | _ => exact .inl rfl

/-- Settles O59, part by part: the step, the frame, and the instructions whose EXECUTE reads a parameter. -/
theorem parameterisedMachineAgreesAtTheDefaults : Obligations.ParameterisedMachineAgreesAtTheDefaults :=
  ⟨stepUnder_ironchip, frameUnder_ironchip,
    fun c i s hne => (executePhase_eq_ironchip_or_reads_parameter c i s).resolve_left hne⟩

end Sys2Proof.Machine
end

section
/-! PROOF. The state of spec/10_state.md: the state after every instruction that completes, said once; which registers and
other parts of the state it leaves alone (R24, R29, R30, R35), where it leaves PC (R26), the call depth (R30), reset (R39)
and the outputs (R92). -/

namespace Sys2Proof.Machine

/-! ### The state after an instruction that completes -/

/-- Everything but PC as the instruction leaves it where its own checks pass (`Completes`): what it writes, in
the order it writes. A flag instruction writes the flag last (R170). -/
def writtenBy (i : Instr) (s : State) : State :=
  match i with
  | .cls => s.setFB Screen.clear
  | .ret => s.setSP (s.SP - 1)
  | .call _ => (s.setSP (s.SP + 1)).setSlot (s.SP + 1) s.PC
  | .ldVB x kk => s.setReg x kk
  | .addVB x kk => s.setReg x (addBytes (s.reg x) kk)
  | .ldVV x y => s.setReg x (s.reg y)
  | .orVV x y => s.setReg x (s.reg x ||| s.reg y)
  | .andVV x y => s.setReg x (s.reg x &&& s.reg y)
  | .xorVV x y => s.setReg x (s.reg x ^^^ s.reg y)
  | .addVV x y => (s.setReg x (addBytes (s.reg x) (s.reg y))).setReg Reg.vf (carryFlag (s.reg x) (s.reg y))
  | .sub x y => (s.setReg x (subBytes (s.reg x) (s.reg y))).setReg Reg.vf (notBorrowFlag (s.reg x) (s.reg y))
  | .subn x y => (s.setReg x (subBytes (s.reg y) (s.reg x))).setReg Reg.vf (notBorrowFlag (s.reg y) (s.reg x))
  | .shr x _ => (s.setReg x (shiftRight (s.reg x))).setReg Reg.vf (lowBitFlag (s.reg x))
  | .shl x _ => (s.setReg x (shiftLeft (s.reg x))).setReg Reg.vf (highBitFlag (s.reg x))
  | .rnd x kk => (s.setReg x (Config.rndByte s.rndTaken &&& kk)).countDraw
  | .drw x y n =>
    let d := drawSprite (originX (s.reg x)) (originY (s.reg y)) n (fun r => s.M.read (dataAddr s r)) s.FB
    (s.setFB d.fb).setReg Reg.vf (flagByte d.collision)
  | .ldVDT x => s.setReg x s.DT
  | .ldVK x =>
    match lowestKey s with
    | none => s
    | some k => s.setReg x (BitVec.ofNat 8 k.val)
  | .ldDTV x => s.setDT (s.reg x)
  | .ldSTV x => s.setST (s.reg x)
  | .ldI nnn => s.setI (addrOf nnn)
  | .addIV x => s.setI (s.I + (s.reg x).setWidth 16)
  | .ldFV x => s.setI (glyphAddr ironchip (s.reg x))
  | .ldBV x => s.setM (s.M.writeAll (dataAddr s 0) (bcdDigits (s.reg x)))
  | .ldMV x => s.setM (s.M.writeAll (dataAddr s 0) ((regsUpTo x).map s.reg))
  | .ldVM x => { s with V := ((regsUpTo x).foldl (fun t i => t.setReg i (t.M.read (dataAddr t i.val))) s).V }
  | .jp _ | .jpV0 _ | .seVB _ _ | .sneVB _ _ | .seVV _ _ | .sneVV _ _ | .skp _ | .sknp _ => s

/-- What an instruction that completes leaves: what it writes, and PC by the table of R26. -/
def stateAfter (i : Instr) (s : State) : State := (writtenBy i s).setPC (pcAfter i s)

/-- A skip leaves everything but PC (R144). -/
theorem retire_skipIf (cond : Bool) (s : State) : retire (.ok (skipIf cond s)) = .next (s.setPC (pcAfterSkip cond s)) := by
  rw [retire_ok, skipIf_advance, pcAfterSkip]

/-- A key number in range is the register's value (R230). -/
theorem withKey_of_le {v : Byte} (body : Reg → Effect) (h : v.toNat ≤ 15) :
    withKey v body = body (Fin.ofNat 16 v.toNat) := by
  rw [withKey_of_lt (by omega)]
  congr 1
  exact Fin.ext (Nat.mod_eq_of_lt (by omega)).symm

/-- Within its software limits (R288) an instruction completes, in `stateAfter`. -/
theorem exec_of_completes {i : Instr} {s : State} (h : Completes i s) : exec i s = .next (stateAfter i s) := by
  rw [exec_eq_retire]
  cases i with
  | jp nnn => exact congrArg _ (State.transferTo_advance s (addrOf nnn))
  | jpV0 nnn => exact congrArg _ (State.transferTo_advance s (indexedTarget s nnn))
  | seVB x kk => exact retire_skipIf (s.reg x == kk) s
  | sneVB x kk => exact retire_skipIf (s.reg x != kk) s
  | seVV x y => exact retire_skipIf (s.reg x == s.reg y) s
  | sneVV x y => exact retire_skipIf (s.reg x != s.reg y) s
  | skp x =>
    rw [executePhase, skpEffect, withKey_of_le _ h]
    exact retire_skipIf _ s
  | sknp x =>
    rw [executePhase, sknpEffect, withKey_of_le _ h]
    exact retire_skipIf _ s
  | ret =>
    have hsp : (⟨s.SP.val - 1, by omega⟩ : Fin 16) = s.SP - 1 := by
      have hne : s.SP.val ≠ 0 := h
      exact Fin.ext (by rw [Fin.val_sub]; simp; omega)
    rw [executePhase, retEffect, if_neg h, hsp]
    rfl
  | call nnn =>
    have hlt : s.SP.val + 1 < 16 := by
      have hne : s.SP.val ≠ 15 := h
      omega
    have hsp : (⟨s.SP.val + 1, hlt⟩ : Fin 16) = s.SP + 1 := Fin.ext (by rw [Fin.val_add]; simp; omega)
    rw [executePhase, callEffect, dif_pos hlt, hsp, retire_ok, State.transferTo_advance]
    rfl
  | ldVK x =>
    simp only [executePhase, ldVKEffect, stateAfter, writtenBy, pcAfter]
    cases lowestKey s with
    | none => simp
    | some k => rfl
  | drw x y n => exact congrArg retire (withData_of_le h)
  | ldBV x => exact congrArg retire (withData_of_le (.inr h))
  | ldMV x => exact congrArg retire (withData_of_le (.inr h))
  | ldVM x =>
    rw [executePhase, ldVMEffect, withData_of_le (.inr h), (loadRegs_spec (regsUpTo x) s).2]
    rfl
  | _ => rfl

/-- An instruction outside its software limits (R288) ends in an error. -/
theorem exec_of_not_completes {i : Instr} {s : State} (h : ¬ Completes i s) : ∃ e, exec i s = .fault e := by
  rw [exec_eq_retire]
  cases i with
  | ret => exact ⟨_, congrArg retire (if_pos (not_not.mp h))⟩
  | call nnn =>
    have hge : ¬ s.SP.val + 1 < 16 := by
      have heq : s.SP.val = 15 := not_not.mp h
      omega
    exact ⟨_, congrArg retire (dif_neg hge)⟩
  | skp x =>
    rw [executePhase, skpEffect, withKey_of_ge (fun hlt => h (Nat.le_of_lt_succ hlt))]
    exact ⟨_, rfl⟩
  | sknp x =>
    rw [executePhase, sknpEffect, withKey_of_ge (fun hlt => h (Nat.le_of_lt_succ hlt))]
    exact ⟨_, rfl⟩
  | drw x y n =>
    obtain ⟨h0, hgt⟩ := not_or.mp h
    exact ⟨_, congrArg retire (withData_of_gt (Nat.pos_of_ne_zero h0) (Nat.lt_of_not_le hgt))⟩
  | ldBV x => exact ⟨_, congrArg retire (withData_of_gt (by omega) (Nat.lt_of_not_le h))⟩
  | ldMV x => exact ⟨_, congrArg retire (withData_of_gt (by omega) (Nat.lt_of_not_le h))⟩
  | ldVM x => exact ⟨_, congrArg retire (withData_of_gt (by omega) (Nat.lt_of_not_le h))⟩
  | _ => exact absurd trivial h

/-- All that an instruction that completes can be: its limits hold, and the state is `stateAfter`. -/
theorem exec_eq_next {i : Instr} {s t : State} : exec i s = .next t ↔ Completes i s ∧ t = stateAfter i s := by
  by_cases h : Completes i s
  · simp [exec_of_completes h, h, eq_comm]
  · obtain ⟨e, he⟩ := exec_of_not_completes h
    simp [he, h]

@[simp] theorem stateAfter_PC (i : Instr) (s : State) : (stateAfter i s).PC = pcAfter i s := rfl
@[simp] theorem stateAfter_reg (i : Instr) (s : State) (r : Reg) : (stateAfter i s).reg r = (writtenBy i s).reg r := rfl

/-! ### What an instruction leaves unchanged -/

/-- Fx65 writes V0..Vx (R198). -/
theorem writtenBy_ldVM_reg (x : Reg) (s : State) (r : Reg) :
    (writtenBy (.ldVM x) s).reg r = if r ≤ x then s.M.read (s.I.toNat + r.val) else s.reg r := by
  simp only [← mem_regsUpTo (x := x)]
  exact (loadRegs_spec (regsUpTo x) s).1 r

/-- Only the registers the writers column of R24 names are written. -/
theorem writtenBy_reg_of_not_mayWriteReg {i : Instr} {r : Reg} (s : State) (h : ¬ MayWriteReg i r) :
    (writtenBy i s).reg r = s.reg r := by
  cases i with
  | ldVB | addVB | ldVV | orVV | andVV | xorVV | rnd | ldVDT | drw => exact (State.setReg_reg _ _ _ _).trans (if_neg h)
  | addVV | sub | shr | subn | shl =>
    obtain ⟨hx, hf⟩ := not_or.mp h
    simp [writtenBy, hx, hf]
  | ldVK x =>
    have hx : r ≠ x := h
    simp only [writtenBy]
    split
    · rfl
    · simp [hx]
  | ldVM x => exact (writtenBy_ldVM_reg x s r).trans (if_neg h)
  | _ => rfl

/-- The key wait writes a register, if anything (R236). -/
theorem writtenBy_ldVK_frame (x : Reg) (s : State) :
    writtenBy (.ldVK x) s = { s with V := (writtenBy (.ldVK x) s).V } := by
  simp only [writtenBy]
  split <;> rfl

/-- I is written by Annn, Fx1E and Fx29 (R29), and by no memory transfer (R193). -/
theorem writtenBy_I (i : Instr) (s : State) :
    (writtenBy i s).I = s.I ∨ (∃ nnn, i = .ldI nnn) ∨ (∃ x, i = .addIV x) ∨ ∃ x, i = .ldFV x := by
  cases i with
  | ldI nnn => exact .inr (.inl ⟨nnn, rfl⟩)
  | addIV x => exact .inr (.inr (.inl ⟨x, rfl⟩))
  | ldFV x => exact .inr (.inr (.inr ⟨x, rfl⟩))
  | ldVK x => exact .inl (by rw [writtenBy_ldVK_frame])
  | _ => exact .inl rfl

/-- SP is written by 2nnn and 00EE (R30). -/
theorem writtenBy_SP (i : Instr) (s : State) :
    (writtenBy i s).SP = s.SP ∨ (∃ nnn, i = .call nnn) ∨ i = .ret := by
  cases i with
  | call nnn => exact .inr (.inl ⟨nnn, rfl⟩)
  | ret => exact .inr (.inr rfl)
  | ldVK x => exact .inl (by rw [writtenBy_ldVK_frame])
  | _ => exact .inl rfl

/-- The framebuffer is written by 00E0 and Dxyn (R35). -/
theorem writtenBy_FB (i : Instr) (s : State) :
    (writtenBy i s).FB = s.FB ∨ i = .cls ∨ ∃ x y n, i = .drw x y n := by
  cases i with
  | cls => exact .inr (.inl rfl)
  | drw x y n => exact .inr (.inr ⟨x, y, n, rfl⟩)
  | ldVK x => exact .inl (by rw [writtenBy_ldVK_frame])
  | _ => exact .inl rfl

/-- A random byte is taken by Cxkk (R96). -/
theorem writtenBy_rndTaken (i : Instr) (s : State) :
    (writtenBy i s).rndTaken = s.rndTaken ∨ ∃ x kk, i = .rnd x kk := by
  cases i with
  | rnd x kk => exact .inr ⟨x, kk, rfl⟩
  | ldVK x => exact .inl (by rw [writtenBy_ldVK_frame])
  | _ => exact .inl rfl

/-- Settles O41: the registers of the state after, against the writers column. -/
theorem registersOutsideTheWriterTableAreKept : Obligations.RegistersOutsideTheWriterTableAreKept := by
  intro i s t r h hr
  obtain ⟨-, rfl⟩ := exec_eq_next.mp h
  rw [← State.reg_eq, ← State.reg_eq, stateAfter_reg, writtenBy_reg_of_not_mayWriteReg s hr]

/-- Settles O44, one part per field of the state after. -/
theorem indexStackPointerAndScreenWriters : Obligations.IndexStackPointerAndScreenWriters := by
  intro i s t h
  obtain ⟨-, rfl⟩ := exec_eq_next.mp h
  exact ⟨writtenBy_I i s, writtenBy_SP i s, writtenBy_FB i s, writtenBy_rndTaken i s⟩

/-! ### Where an instruction leaves PC (R26) -/

theorem addrOf_eq_ofNat (nnn : BitVec 12) : addrOf nnn = BitVec.ofNat 16 nnn.toNat := by
  rw [← addrOf_toNat nnn, BitVec.ofNat_toNat, BitVec.setWidth_eq]

theorem indexedTarget_eq_ofNat (s : State) (nnn : BitVec 12) :
    indexedTarget s nnn = BitVec.ofNat 16 (nnn.toNat + (s.reg 0).toNat) := by
  rw [← indexedTarget_toNat, BitVec.ofNat_toNat, BitVec.setWidth_eq]

/-- For a value of at most 15, some key has that number and is pressed exactly if the key it names is pressed (R230). -/
theorem exists_key_eq_iff {s : State} {v : Byte} (h : v.toNat ≤ 15) :
    (∃ k : Fin 16, k.val = v.toNat ∧ s.K[k] = true) ↔ s.key (Fin.ofNat 16 v.toNat) = true := by
  have hv : (Fin.ofNat 16 v.toNat).val = v.toNat := Nat.mod_eq_of_lt (by omega)
  constructor
  · rintro ⟨k, hk, hpressed⟩
    rwa [← Fin.ext (hk.trans hv.symm)]
  · exact fun hpressed => ⟨_, hv, hpressed⟩

/-- Settles O45: PC of the state after, row by row of the table. -/
theorem programCounterAfterEachInstruction : Obligations.ProgramCounterAfterEachInstruction := by
  intro i s t h
  obtain ⟨hc, rfl⟩ := exec_eq_next.mp h
  rw [stateAfter_PC]
  cases i with
  | jp nnn => exact addrOf_eq_ofNat nnn
  | call nnn => exact addrOf_eq_ofNat nnn
  | jpV0 nnn => exact indexedTarget_eq_ofNat s nnn
  | seVB | sneVB | seVV | sneVV => simp [pcAfter, pcAfterSkip, State.reg_eq]
  | skp x => simp only [pcAfter, pcAfterSkip, ← exists_key_eq_iff hc]; rfl
  | sknp x =>
    simp only [pcAfter, pcAfterSkip, Bool.not_eq_true', ← Bool.not_eq_true, ← exists_key_eq_iff hc, ite_not]
    rfl
  | ldVK x => simp only [pcAfter, lowestKey_eq_none]; rfl
  | _ => rfl

/-! ### Nested calls (R30, R143) -/

/-- A call below depth 15 goes one level up. -/
theorem stateAfter_call_SP {s : State} (nnn : BitVec 12) (h : s.SP.val + 1 < 16) :
    (stateAfter (.call nnn) s).SP.val = s.SP.val + 1 :=
  Fin.val_add_one_of_lt' h

/-- A call below depth 15 writes only the slot above SP. -/
theorem stateAfter_call_slot_of_le {s : State} (nnn : BitVec 12) (h : s.SP.val + 1 < 16) {j : Fin 16} (hj : j ≤ s.SP) :
    (stateAfter (.call nnn) s).slot j = s.slot j := by
  have hne : j ≠ s.SP + 1 := by
    have hup : (s.SP + 1).val = s.SP.val + 1 := Fin.val_add_one_of_lt' h
    have hle : j.val ≤ s.SP.val := hj
    exact Fin.ne_of_val_ne (by omega)
  exact (State.setSlot_slot _ _ _ _).trans (if_neg hne)

/-- A call at depth 15 would reach depth 16 (R143). -/
theorem exec_call_of_full {s : State} (nnn : BitVec 12) (h : s.SP.val = 15) :
    exec (.call nnn) s = .fault (.spOutOfBounds 16) := by
  rw [exec_eq_retire, executePhase, callEffect, dif_neg (by omega), retire_raise, h]

theorem execAll_cons_of_completes {i : Instr} {s : State} (is : List Instr) (h : Completes i s) :
    execAll (i :: is) s = execAll is (stateAfter i s) := by
  rw [execAll, exec_of_completes h]

/-- Calls within the fifteen levels: SP goes up by one each, and no slot up to the first SP is written. -/
theorem execAll_calls (ts : List (BitVec 12)) (s : State) (h : s.SP.val + ts.length ≤ 15) :
    ∃ t, execAll (ts.map Instr.call) s = .next t ∧ t.SP.val = s.SP.val + ts.length ∧
      ∀ j : Fin 16, j ≤ s.SP → t.slot j = s.slot j := by
  induction ts generalizing s with
  | nil => exact ⟨s, rfl, rfl, fun _ _ => rfl⟩
  | cons nnn ts ih =>
    rw [List.length_cons] at h
    have hlt : s.SP.val + 1 < 16 := by omega
    have hc : Completes (.call nnn) s := show s.SP.val ≠ 15 by omega
    have hsp := stateAfter_call_SP nnn hlt
    obtain ⟨t, hrun, htsp, hslot⟩ := ih (stateAfter (.call nnn) s) (by omega)
    refine ⟨t, (execAll_cons_of_completes _ hc).trans hrun, by rw [List.length_cons]; omega, fun j hj => ?_⟩
    have hj' : j ≤ (stateAfter (.call nnn) s).SP := Fin.le_def.mpr (by have := Fin.le_def.mp hj; omega)
    rw [hslot j hj', stateAfter_call_slot_of_le nnn hlt hj]

/-- A run of calls that would reach depth 16 ends there in the overflow (R143). -/
theorem execAll_calls_overflow (ts : List (BitVec 12)) (s : State) (h : 16 ≤ s.SP.val + ts.length) :
    execAll (ts.map Instr.call) s = .fault (.spOutOfBounds 16) := by
  induction ts generalizing s with
  | nil => exact absurd h (by simp)
  | cons nnn ts ih =>
    rw [List.length_cons] at h
    by_cases hfull : s.SP.val = 15
    · rw [List.map_cons, execAll, exec_call_of_full nnn hfull]
    · have hsp := stateAfter_call_SP (s := s) nnn (by omega)
      have hc : Completes (.call nnn) s := hfull
      rw [List.map_cons, execAll_cons_of_completes _ hc]
      exact ih _ (by omega)

/-- Settles O18: both runs, from SP = 0. -/
theorem sixteenthNestedCallOverflows : Obligations.SixteenthNestedCallOverflows := by
  intro s ts h0
  refine ⟨fun hle => ?_, fun h16 => execAll_calls_overflow ts s (by omega)⟩
  obtain ⟨t, hrun, hsp, hslot⟩ := execAll_calls ts s (by omega)
  exact ⟨t, hrun, by omega, hslot 0 (Fin.zero_le _)⟩

/-! ### Reset and the outputs -/

/-- Settles O46: reset memory lists nothing, PC is 0x200, and every slot is 0 (R39). -/
theorem resetSatisfiesTheInvariant : Obligations.ResetSatisfiesTheInvariant where
  mem := Memory.wf_nil
  pc := by decide
  slots j := by simp [State.slot, State.reset]

theorem buzzer_iff (s : State) : s.buzzer = true ↔ s.ST.toNat ≠ 0 := by
  simp [State.buzzer, ← BitVec.toNat_inj]

/-- Row-major order: row `y` begins at element `64 * y` (R35). -/
theorem fbView_eq_pixel {s : State} {y : Fin 32} {x : Fin 64} {i : Fin 2048} (h : i.val = y.val * 64 + x.val) :
    s.fbView i = s.FB.pixel y x := by
  have hy : i.val / 64 = y.val := by omega
  have hx : i.val % 64 = x.val := by omega
  simp only [State.fbView, hy, hx]

/-- Settles O60: the buzzer (R32), and the flat view (R35, R92). -/
theorem outputsFollowTheState : Obligations.OutputsFollowTheState :=
  fun s => ⟨buzzer_iff s, fun _ _ _ h => fbView_eq_pixel h⟩

end Sys2Proof.Machine
end

section
/-! PROOF. The memory of spec/20_memory.md: which instructions write it and where (R51, R52), what a fetch reads after a
bulk store (R56, R64), and reset memory under every font parameter (R53). -/

namespace Sys2Proof.Machine

/-! ### Which instructions write memory, and where (R51, R52) -/

@[simp] theorem stateAfter_M (i : Instr) (s : State) : (stateAfter i s).M = (writtenBy i s).M := rfl

/-- Memory is written by Fx33 and Fx55 (R51). -/
theorem writtenBy_M (i : Instr) (s : State) :
    (writtenBy i s).M = s.M ∨ (∃ x, i = .ldBV x) ∨ ∃ x, i = .ldMV x := by
  cases i with
  | ldBV x => exact .inr (.inl ⟨x, rfl⟩)
  | ldMV x => exact .inr (.inr ⟨x, rfl⟩)
  | ldVK x => exact .inl (by rw [writtenBy_ldVK_frame])
  | _ => exact .inl rfl

/-- Fx33 writes only the three bytes from I up (R196). -/
theorem writtenBy_ldBV_read_outside (x : Reg) (s : State) {b : Nat} (h : b < dataAddr s 0 ∨ dataAddr s 0 + 3 ≤ b) :
    (writtenBy (.ldBV x) s).M.read b = s.M.read b :=
  Memory.read_writeAll_outside (bcdDigits (s.reg x)) s.M (dataAddr s 0) b h

/-- Fx55 writes only the x + 1 bytes from I up (R197). -/
theorem writtenBy_ldMV_read_outside (x : Reg) (s : State) {b : Nat}
    (h : b < dataAddr s 0 ∨ dataAddr s 0 + (x.val + 1) ≤ b) :
    (writtenBy (.ldMV x) s).M.read b = s.M.read b :=
  Memory.read_writeAll_outside ((regsUpTo x).map s.reg) s.M (dataAddr s 0) b (by simpa using h)

/-- Settles O42: the memory of the state after, for the two writers and for every other instruction. -/
theorem memoryIsWrittenOnlyByBcdAndBulkStore : Obligations.MemoryIsWrittenOnlyByBcdAndBulkStore := by
  intro i s t b h hbcd hbulk
  obtain ⟨-, rfl⟩ := exec_eq_next.mp h
  rw [stateAfter_M]
  obtain hkeep | ⟨x, rfl⟩ | ⟨x, rfl⟩ := writtenBy_M i s
  · rw [hkeep]
  · exact writtenBy_ldBV_read_outside x s (hbcd x rfl _ rfl)
  · exact writtenBy_ldMV_read_outside x s (hbulk x rfl _ rfl)

/-! ### A fetch of stored bytes (R56, R64) -/

/-- Fx55 within memory leaves V0..Vx in the bytes from I up (R197). -/
theorem writtenBy_ldMV_read {x : Reg} {s : State} (hc : Completes (.ldMV x) s) {r : Reg} (hr : r ≤ x) :
    (writtenBy (.ldMV x) s).M.read (s.I.toNat + r.val) = s.reg r := by
  have hfits : s.I.toNat + x.val ≤ 0xFFF := hc
  have hle : r.val ≤ x.val := hr
  simp only [writtenBy, State.setM_M, dataAddr, Nat.add_zero]
  rw [Memory.read_writeAll _ _ _ (by simp; omega), dif_pos (by simp; omega)]
  simp [getElem_regsUpTo]

/-- Settles O34: V0 and V1 stand at the fetch address, and both bytes lie in memory because the store completed. -/
theorem storedBytesAreFetchedNext : Obligations.StoredBytesAreFetchedNext := by
  intro s t u x h hx hM hPC
  obtain ⟨hc, rfl⟩ := exec_eq_next.mp h
  have hfits : s.I.toNat + x.val ≤ 0xFFF := hc
  have hhigh : u.M.read u.PC.toNat = s.reg 0 := by
    rw [hM, hPC]
    exact writtenBy_ldMV_read hc (Fin.zero_le x)
  have hlow : u.M.read (u.PC.toNat + 1) = s.reg 1 := by
    rw [hM, hPC]
    exact writtenBy_ldMV_read (r := 1) hc hx
  rw [fetch_of_le (by rw [hPC]; omega), hhigh, hlow]
  rfl

/-! ### Reset memory under every font parameter (R39, R53) -/

theorem resetByte_font (c : Config) {i : Nat} (h : i < 80) : resetByte c (c.fontBase.toNat + i) = c.fontRom[i] := by
  rw [resetByte, dif_pos (by omega)]
  simp only [Nat.add_sub_cancel_left]

theorem resetByte_outside {c : Config} {a : Nat} (h : a < c.fontBase.toNat ∨ c.fontBase.toNat + 80 ≤ a) :
    resetByte c a = 0 := by
  rw [resetByte, dif_neg (by omega)]

theorem resetUnder_M (c : Config) : (resetUnder c).M = resetMemory c := by rw [resetUnder, State.setM_M]

theorem wf_resetMemory (c : Config) : (resetMemory c).wf := Memory.wf_writeAll _ Memory.wf_nil 0

/-- Building reset memory writes the 4096 addresses of R50 and no other (R39). -/
theorem read_resetMemory (c : Config) (a : Nat) :
    (resetMemory c).read a = if a ≤ 0xFFF then resetByte c a else Memory.unlisted a := by
  rw [resetMemory]
  split
  · rw [Memory.read_writeAll _ _ _ (by simp), dif_pos (by simp; omega)]
    simp
  · rw [Memory.read_writeAll_outside _ _ _ _ (.inr (by simp; omega)), Memory.read_nil]

/-- At this core's parameters every reset byte is what an unlisted address reads as, so nothing is listed. -/
theorem resetMemory_ironchip : resetMemory ironchip = [] := by
  refine Memory.eq_of_read_eq (wf_resetMemory ironchip) Memory.wf_nil fun a => ?_
  rw [read_resetMemory, Memory.read_nil, Memory.unlisted, ite_self]

theorem resetUnder_ironchip : resetUnder ironchip = State.reset := by
  rw [resetUnder, resetMemory_ironchip]
  rfl

/-- Settles O58: the canonical form, the font, the zeros beside it, and this core's parameters. -/
theorem resetUnderEveryFontParameter : Obligations.ResetUnderEveryFontParameter := by
  refine ⟨fun c hok => ?_, resetUnder_ironchip⟩
  have hbelow : c.fontBase.toNat + 80 ≤ 0x200 := hok
  rw [resetUnder_M]
  refine ⟨wf_resetMemory c, fun i h => ?_, fun a ha hout => ?_⟩
  · rw [read_resetMemory, if_pos (by omega), resetByte_font c h]
  · rw [read_resetMemory, if_pos ha, resetByte_outside hout]

end Sys2Proof.Machine
end

section
/-! PROOF. The encoding of spec/30_encoding.md: the two round trips between words and instructions (R71, R73), the
reserved words (R75), the other decode parameters (R77), and the opcode table against the decoder (R74). -/

namespace Sys2Proof

open Machine

/-! ### Decoding an encoded instruction -/

/-- Decoding inverts encoding: the law of each constructor. -/
theorem decodeWord_encode {i : Instr} (h : i.WellFormed) : decodeWord ironchip (encode i) = some i := by
  cases i with
  | cls => exact Laws.RoundTrip.cls h
  | ret => exact Laws.RoundTrip.ret h
  | jp nnn => exact Laws.RoundTrip.jp nnn h
  | call nnn => exact Laws.RoundTrip.call nnn h
  | seVB x kk => exact Laws.RoundTrip.seVB x kk h
  | sneVB x kk => exact Laws.RoundTrip.sneVB x kk h
  | seVV x y => exact Laws.RoundTrip.seVV x y h
  | ldVB x kk => exact Laws.RoundTrip.ldVB x kk h
  | addVB x kk => exact Laws.RoundTrip.addVB x kk h
  | ldVV x y => exact Laws.RoundTrip.ldVV x y h
  | orVV x y => exact Laws.RoundTrip.orVV x y h
  | andVV x y => exact Laws.RoundTrip.andVV x y h
  | xorVV x y => exact Laws.RoundTrip.xorVV x y h
  | addVV x y => exact Laws.RoundTrip.addVV x y h
  | sub x y => exact Laws.RoundTrip.sub x y h
  | shr x y => exact Laws.RoundTrip.shr x y h
  | subn x y => exact Laws.RoundTrip.subn x y h
  | shl x y => exact Laws.RoundTrip.shl x y h
  | sneVV x y => exact Laws.RoundTrip.sneVV x y h
  | ldI nnn => exact Laws.RoundTrip.ldI nnn h
  | jpV0 nnn => exact Laws.RoundTrip.jpV0 nnn h
  | rnd x kk => exact Laws.RoundTrip.rnd x kk h
  | drw x y n => exact Laws.RoundTrip.drw x y n h
  | skp x => exact Laws.RoundTrip.skp x h
  | sknp x => exact Laws.RoundTrip.sknp x h
  | ldVDT x => exact Laws.RoundTrip.ldVDT x h
  | ldVK x => exact Laws.RoundTrip.ldVK x h
  | ldDTV x => exact Laws.RoundTrip.ldDTV x h
  | ldSTV x => exact Laws.RoundTrip.ldSTV x h
  | addIV x => exact Laws.RoundTrip.addIV x h
  | ldFV x => exact Laws.RoundTrip.ldFV x h
  | ldBV x => exact Laws.RoundTrip.ldBV x h
  | ldMV x => exact Laws.RoundTrip.ldMV x h
  | ldVM x => exact Laws.RoundTrip.ldVM x h

/-- Settles O2: the two bytes of a word decode as the word does. -/
theorem decodingEncodedInstructionGivesItBack : Obligations.DecodingEncodedInstructionGivesItBack := by
  intro i rest h
  rw [encodeBytes, decode_bytesOfWord, decodeWord_encode h]

/-! ### Encoding a decoded word, family by family -/

theorem formatNNN_eq_of_fields {op : Word} {h : BitVec 4} (hh : opH op = h) : formatNNN h (opNNN op) = op := by
  rw [← hh, formatNNN_fields]

theorem formatXKK_eq_of_fields {op : Word} {h : BitVec 4} {kk : Byte} (hh : opH op = h) (hk : opKK op = kk) :
    formatXKK h (opX op) kk = op := by
  rw [← hh, ← hk, formatXKK_fields]

theorem formatXYS_eq_of_fields {op : Word} {h s : BitVec 4} (hh : opH op = h) (hs : opS op = s) :
    formatXYS h (opX op) (opY op) s = op := by
  rw [← hh, ← hs, formatXYS_fields]

/-- Family 0 matches the whole word at this core's parameters (D13). -/
theorem decodeFamily0_ironchip (op : Word) : decodeFamily0 ironchip op =
    if op = 0x00E0 then some .cls else if op = 0x00EE then some .ret else none := rfl

/-- Families 5 and 9 want the nibble `s` to be 0 at this core's parameters (D14). -/
theorem decodeFamily59_ironchip (op : Word) (mk : Reg → Reg → Instr) :
    decodeFamily59 ironchip op mk = if opS op = 0 then some (mk (opX op) (opY op)) else none := by
  simp [decodeFamily59, ironchip]

theorem decodeFamily59_eq_some {op : Word} {mk : Reg → Reg → Instr} {i : Instr}
    (h : decodeFamily59 ironchip op mk = some i) : opS op = 0 ∧ i = mk (opX op) (opY op) := by
  rw [decodeFamily59_ironchip] at h
  split_ifs at h with hs
  exact ⟨hs, (Option.some.inj h).symm⟩

theorem encode_of_decodeFamily0 {op : Word} {i : Instr} (h : decodeFamily0 ironchip op = some i) :
    i.WellFormed ∧ encode i = op := by
  rw [decodeFamily0_ironchip] at h
  split_ifs at h with hcls hret <;> cases h
  · exact ⟨rfl, hcls.symm⟩
  · exact ⟨rfl, hret.symm⟩

theorem encode_of_decodeFamily8 {op : Word} {i : Instr} (hh : opH op = 0x8) (h : decodeFamily8 op = some i) :
    i.WellFormed ∧ encode i = op := by
  unfold decodeFamily8 at h
  split at h <;> cases h <;> exact ⟨rfl, formatXYS_eq_of_fields hh ‹_›⟩

theorem encode_of_decodeFamilyE {op : Word} {i : Instr} (hh : opH op = 0xE) (h : decodeFamilyE op = some i) :
    i.WellFormed ∧ encode i = op := by
  unfold decodeFamilyE at h
  split at h <;> cases h <;> exact ⟨rfl, formatXKK_eq_of_fields hh ‹_›⟩

theorem encode_of_decodeFamilyF {op : Word} {i : Instr} (hh : opH op = 0xF) (h : decodeFamilyF op = some i) :
    i.WellFormed ∧ encode i = op := by
  unfold decodeFamilyF at h
  split at h <;> cases h <;> exact ⟨rfl, formatXKK_eq_of_fields hh ‹_›⟩

/-- Encoding inverts decoding: each branch of R73 fixes the fields its format leaves no operand for. Branch `h_k` is
family `k - 1`. -/
theorem encode_of_decodeWord {op : Word} {i : Instr} (h : decodeWord ironchip op = some i) :
    i.WellFormed ∧ encode i = op := by
  unfold decodeWord at h
  split at h
  case h_1 => exact encode_of_decodeFamily0 h
  case h_2 hh | h_3 hh | h_11 hh | h_12 hh => cases h; exact ⟨rfl, formatNNN_eq_of_fields hh⟩
  case h_4 hh | h_5 hh | h_7 hh | h_8 hh | h_13 hh => cases h; exact ⟨rfl, formatXKK_eq_of_fields hh rfl⟩
  case h_6 hh | h_10 hh =>
    obtain ⟨hs, rfl⟩ := decodeFamily59_eq_some h
    exact ⟨rfl, formatXYS_eq_of_fields hh hs⟩
  case h_9 hh => exact encode_of_decodeFamily8 hh h
  case h_14 hh =>
    cases h
    exact ⟨decide_eq_true (Nat.le_of_lt_succ (opS op).isLt), formatXYS_eq_of_fields hh (by simp)⟩
  case h_15 hh => exact encode_of_decodeFamilyE hh h
  case h_16 hh => exact encode_of_decodeFamilyF hh h
  case h_17 => cases h

/-- Settles O3, by the branch the word decodes in. -/
theorem encodingDecodedWordGivesItBack : Obligations.EncodingDecodedWordGivesItBack :=
  fun _ _ => encode_of_decodeWord

/-! ### The reserved words (R75) -/

theorem opH_toNat (op : Word) : (opH op).toNat = op.toNat / 0x1000 := by
  have := op.isLt
  simp only [opH, BitVec.extractLsb'_toNat, Nat.shiftRight_eq_div_pow]
  omega

theorem opS_toNat (op : Word) : (opS op).toNat = op.toNat % 16 := by
  simp [opS]

theorem opKK_toNat (op : Word) : (opKK op).toNat = op.toNat % 0x100 := by
  simp [opKK]

theorem decodeFamily0_eq_none {op : Word} : decodeFamily0 ironchip op = none ↔ op ∉ [0x00E0, 0x00EE] := by
  rw [decodeFamily0_ironchip]
  split_ifs <;> simp_all

theorem decodeFamily59_eq_none {op : Word} {mk : Reg → Reg → Instr} :
    decodeFamily59 ironchip op mk = none ↔ opS op ≠ 0 := by
  rw [decodeFamily59_ironchip]
  split_ifs <;> simp_all

theorem decodeFamily8_eq_none {op : Word} :
    decodeFamily8 op = none ↔ opS op ∉ [0x0, 0x1, 0x2, 0x3, 0x4, 0x5, 0x6, 0x7, 0xE] := by
  unfold decodeFamily8
  split <;> simp_all

theorem decodeFamilyE_eq_none {op : Word} : decodeFamilyE op = none ↔ opKK op ∉ [0x9E, 0xA1] := by
  unfold decodeFamilyE
  split <;> simp_all

theorem decodeFamilyF_eq_none {op : Word} : decodeFamilyF op = none ↔
    opKK op ∉ [0x07, 0x0A, 0x15, 0x18, 0x1E, 0x29, 0x33, 0x55, 0x65] := by
  unfold decodeFamilyF
  split <;> simp_all

/-- The rejected words by their fields: of the sixteen families only 0, 5, 8, 9, E and F reject a word. -/
theorem decodeWord_eq_none {op : Word} : decodeWord ironchip op = none ↔
    (opH op = 0x0 ∧ op ∉ [0x00E0, 0x00EE]) ∨
    ((opH op = 0x5 ∨ opH op = 0x9) ∧ opS op ≠ 0) ∨
    (opH op = 0x8 ∧ opS op ∉ [0x0, 0x1, 0x2, 0x3, 0x4, 0x5, 0x6, 0x7, 0xE]) ∨
    (opH op = 0xE ∧ opKK op ∉ [0x9E, 0xA1]) ∨
    (opH op = 0xF ∧ opKK op ∉ [0x07, 0x0A, 0x15, 0x18, 0x1E, 0x29, 0x33, 0x55, 0x65]) := by
  unfold decodeWord
  split
  case h_1 hh => simp [hh, decodeFamily0_eq_none]
  case h_6 hh | h_10 hh => simp [hh, decodeFamily59_eq_none]
  case h_9 hh => simp [hh, decodeFamily8_eq_none]
  case h_15 hh => simp [hh, decodeFamilyE_eq_none]
  case h_16 hh => simp [hh, decodeFamilyF_eq_none]
  case h_17 =>
    exfalso
    have := (opH op).isLt
    simp_all [← BitVec.toNat_inj]
    omega
  all_goals simp [*]

/-- The nibbles family 8 has no operation for. -/
theorem opS_not_mem_family8_iff {op : Word} : opS op ∉ [0x0, 0x1, 0x2, 0x3, 0x4, 0x5, 0x6, 0x7, 0xE] ↔
    (opS op).toNat ∈ [0x8, 0x9, 0xA, 0xB, 0xC, 0xD, 0xF] := by
  generalize opS op = s
  decide +revert

/-- Settles O4: the rejected words by their fields, the fields read as numbers. -/
theorem rejectedWordsAreExactlyTheReservedClasses : Obligations.RejectedWordsAreExactlyTheReservedClasses := by
  intro op
  have hlow : op.toNat < 0x1000 ↔ (opH op).toNat = 0 := by rw [opH_toNat]; omega
  rw [decodeWord_eq_none, opS_not_mem_family8_iff, hlow, ← opH_toNat, ← opS_toNat, ← opKK_toNat]
  simp [← BitVec.toNat_inj]

/-! ### The opcode table (R74): no two rows overlap -/

theorem OpcodeRow.matches_iff {r : OpcodeRow} {op : Word} : r.matches op = true ↔ op &&& r.mask = r.pattern :=
  beq_iff_eq

/-- Two rows of the table differ in a bit that both masks select. -/
theorem eq_of_patterns_agree : ∀ r ∈ opcodeTable, ∀ q ∈ opcodeTable,
    r.pattern &&& q.mask = q.pattern &&& r.mask → r = q := by
  decide

theorem eq_of_matches {op : Word} {r q : OpcodeRow} (hr : r ∈ opcodeTable) (hq : q ∈ opcodeTable)
    (hrop : r.matches op = true) (hqop : q.matches op = true) : r = q := by
  rw [OpcodeRow.matches_iff] at hrop hqop
  refine eq_of_patterns_agree r hr q hq ?_
  rw [← hrop, ← hqop, BitVec.and_assoc, BitVec.and_assoc, BitVec.and_comm r.mask]

theorem find?_eq_of_matches {op : Word} {r : OpcodeRow} (hr : r ∈ opcodeTable) (h : r.matches op = true) :
    opcodeTable.find? (fun q => q.matches op) = some r := by
  have hsome : (opcodeTable.find? (fun q => q.matches op)).isSome := List.find?_isSome.mpr ⟨r, hr, h⟩
  obtain ⟨q, hq⟩ := Option.isSome_iff_exists.mp hsome
  have hqop : q.matches op = true := List.find?_some (p := fun t : OpcodeRow => t.matches op) hq
  rw [hq, eq_of_matches (List.mem_of_find?_eq_some hq) hr hqop h]

/-! ### The masks of the formats (R71): operand bits cleared -/

theorem formatNNN_and_F000 (h : BitVec 4) (nnn : BitVec 12) : formatNNN h nnn &&& 0xF000#16 = formatNNN h 0 := by
  show (h ++ nnn) &&& (BitVec.allOnes 4 ++ 0#12) = h ++ 0#12
  simp only [BitVec.and_append, BitVec.and_allOnes, BitVec.and_zero]

theorem formatXKK_and_F000 (h : BitVec 4) (x : Reg) (kk : Byte) : formatXKK h x kk &&& 0xF000#16 = formatXKK h 0 0 :=
  formatNNN_and_F000 h _

theorem formatXYS_and_F000 (h : BitVec 4) (x y : Reg) (s : BitVec 4) :
    formatXYS h x y s &&& 0xF000#16 = formatXYS h 0 0 0 :=
  formatNNN_and_F000 h _

theorem formatXKK_and_F0FF (h : BitVec 4) (x : Reg) (kk : Byte) :
    formatXKK h x kk &&& 0xF0FF#16 = formatXKK h 0 kk := by
  show (h ++ (BitVec.ofNat 4 x.val ++ kk)) &&& (BitVec.allOnes 4 ++ (0#4 ++ BitVec.allOnes 8)) = h ++ (0#4 ++ kk)
  simp only [BitVec.and_append, BitVec.and_allOnes, BitVec.and_zero]

theorem formatXYS_and_F00F (h : BitVec 4) (x y : Reg) (s : BitVec 4) :
    formatXYS h x y s &&& 0xF00F#16 = formatXYS h 0 0 s := by
  show (h ++ (BitVec.ofNat 4 x.val ++ (BitVec.ofNat 4 y.val ++ s))) &&&
    (BitVec.allOnes 4 ++ (0#4 ++ (0#4 ++ BitVec.allOnes 4))) = h ++ (0#4 ++ (0#4 ++ s))
  simp only [BitVec.and_append, BitVec.and_allOnes, BitVec.and_zero]

/-! ### A word that decodes is of its instruction's row -/

/-- The bits of an instruction's word that are no operand bits, by format (R71). -/
def Instr.mask : Instr → Word
  | .cls | .ret => 0xFFFF#16
  | .jp _ | .call _ | .ldI _ | .jpV0 _ | .seVB _ _ | .sneVB _ _ | .ldVB _ _ | .addVB _ _ | .rnd _ _ | .drw _ _ _ =>
    0xF000#16
  | .seVV _ _ | .sneVV _ _ | .ldVV _ _ | .orVV _ _ | .andVV _ _ | .xorVV _ _ | .addVV _ _ | .sub _ _ | .shr _ _
  | .subn _ _ | .shl _ _ => 0xF00F#16
  | .skp _ | .sknp _ | .ldVDT _ | .ldVK _ | .ldDTV _ | .ldSTV _ | .addIV _ | .ldFV _ | .ldBV _ | .ldMV _ | .ldVM _ =>
    0xF0FF#16

/-- The row of an instruction: its name, and its word with the operand bits cleared. -/
def Instr.row (i : Instr) : OpcodeRow := ⟨i.mnemonic, encode i &&& i.mask, i.mask⟩

@[simp] theorem row_mnemonic (i : Instr) : i.row.mnemonic = i.mnemonic := rfl

theorem row_matches_encode (i : Instr) : i.row.matches (encode i) = true := OpcodeRow.matches_iff.mpr rfl

/-- The table holds the row of every instruction, one case per format. -/
theorem row_mem_opcodeTable (i : Instr) : i.row ∈ opcodeTable := by
  unfold Instr.row
  cases i with
  | cls | ret => decide
  | jp | call | ldI | jpV0 =>
    simp only [encode, Instr.mnemonic, Instr.mask, formatNNN_and_F000]
    decide
  | seVB | sneVB | ldVB | addVB | rnd =>
    simp only [encode, Instr.mnemonic, Instr.mask, formatXKK_and_F000]
    decide
  | drw =>
    simp only [encode, Instr.mnemonic, Instr.mask, formatXYS_and_F000]
    decide
  | seVV | sneVV | ldVV | orVV | andVV | xorVV | addVV | sub | shr | subn | shl =>
    simp only [encode, Instr.mnemonic, Instr.mask, formatXYS_and_F00F]
    decide
  | skp | sknp | ldVDT | ldVK | ldDTV | ldSTV | addIV | ldFV | ldBV | ldMV | ldVM =>
    simp only [encode, Instr.mnemonic, Instr.mask, formatXKK_and_F0FF]
    decide

/-! ### A word that does not decode is of no row -/

@[simp] theorem opH_ofNat (n : Nat) : opH (BitVec.ofNat 16 n) = BitVec.ofNat 4 (n / 0x1000) := by
  apply BitVec.eq_of_toNat_eq
  rw [opH_toNat, BitVec.toNat_ofNat, BitVec.toNat_ofNat]
  omega

@[simp] theorem opS_ofNat (n : Nat) : opS (BitVec.ofNat 16 n) = BitVec.ofNat 4 n := by
  apply BitVec.eq_of_toNat_eq
  rw [opS_toNat, BitVec.toNat_ofNat, BitVec.toNat_ofNat]
  omega

@[simp] theorem opKK_ofNat (n : Nat) : opKK (BitVec.ofNat 16 n) = BitVec.ofNat 8 n := by
  apply BitVec.eq_of_toNat_eq
  rw [opKK_toNat, BitVec.toNat_ofNat, BitVec.toNat_ofNat]
  omega

/-! A match is an equality of the fields the mask keeps. The full mask states the family apart, so that rows of other
families fail by it under every mask. -/

theorem and_FFFF_eq_iff {op p : Word} : op &&& 0xFFFF#16 = p ↔ opH op = opH p ∧ op = p := by
  have hand : op &&& 0xFFFF#16 = op := BitVec.and_allOnes
  rw [hand]
  exact ⟨fun h => ⟨congrArg opH h, h⟩, fun h => h.2⟩

theorem and_F000_eq_iff {op p : Word} (hp : p &&& 0xF000#16 = p) : op &&& 0xF000#16 = p ↔ opH op = opH p := by
  constructor
  · intro h
    rw [← h, ← formatNNN_fields op, formatNNN_and_F000, opH_formatNNN, opH_formatNNN]
  · intro h
    rw [← hp, ← formatNNN_fields op, ← formatNNN_fields p, formatNNN_and_F000, formatNNN_and_F000, h]

theorem and_F0FF_eq_iff {op p : Word} (hp : p &&& 0xF0FF#16 = p) :
    op &&& 0xF0FF#16 = p ↔ opH op = opH p ∧ opKK op = opKK p := by
  constructor
  · intro h
    rw [← h, ← formatXKK_fields op, formatXKK_and_F0FF]
    simp
  · rintro ⟨hh, hk⟩
    rw [← hp, ← formatXKK_fields op, ← formatXKK_fields p, formatXKK_and_F0FF, formatXKK_and_F0FF, hh, hk]

theorem and_F00F_eq_iff {op p : Word} (hp : p &&& 0xF00F#16 = p) :
    op &&& 0xF00F#16 = p ↔ opH op = opH p ∧ opS op = opS p := by
  constructor
  · intro h
    rw [← h, ← formatXYS_fields op, formatXYS_and_F00F]
    simp
  · rintro ⟨hh, hs⟩
    rw [← hp, ← formatXYS_fields op, ← formatXYS_fields p, formatXYS_and_F00F, formatXYS_and_F00F, hh, hs]

/-- In each reserved class the rows of other families fail by the family, and those of the word's own family by `hr`. -/
theorem not_matches_of_decodeWord_eq_none {op : Word} (h : decodeWord ironchip op = none) :
    ∀ r ∈ opcodeTable, ¬ r.matches op = true := by
  simp only [OpcodeRow.matches_iff, opcodeTable, opcodeRows0to7, opcodeRows8, opcodeRows9toD, opcodeRowsEF]
  rw [decodeWord_eq_none] at h
  obtain ⟨hh, hr⟩ | ⟨hh | hh, hr⟩ | ⟨hh, hr⟩ | ⟨hh, hr⟩ | ⟨hh, hr⟩ := h <;>
    simpa [and_FFFF_eq_iff, and_F000_eq_iff, and_F0FF_eq_iff, and_F00F_eq_iff, hh] using hr

/-- Settles O5: rows that match one word agree, and the word's row, if it has one, is its instruction's. -/
theorem opcodeTableRowsAreDisjointAndDecide : Obligations.OpcodeTableRowsAreDisjointAndDecide := by
  refine ⟨fun op r q hr hq => eq_of_matches hr hq, fun op => ?_⟩
  cases hd : decodeWord ironchip op with
  | none =>
    rw [List.find?_eq_none.mpr (not_matches_of_decodeWord_eq_none hd), Option.map_none, Option.map_none]
  | some i =>
    obtain ⟨-, rfl⟩ := encode_of_decodeWord hd
    rw [find?_eq_of_matches (row_mem_opcodeTable i) (row_matches_encode i), Option.map_some, Option.map_some,
      row_mnemonic]

/-! ### Other decode parameters (R73, R77) -/

theorem decodeFamily0_of_ironchip {op : Word} {i : Instr} (c : Config) (h : decodeFamily0 ironchip op = some i) :
    decodeFamily0 c op = some i := by
  rw [decodeFamily0_ironchip] at h
  split_ifs at h with hcls hret <;> cases h
  · simp [decodeFamily0, hcls]
  · simp [decodeFamily0, hret]

theorem decodeFamily59_of_ironchip {op : Word} {mk : Reg → Reg → Instr} {i : Instr} (c : Config)
    (h : decodeFamily59 ironchip op mk = some i) : decodeFamily59 c op mk = some i := by
  obtain ⟨hs, rfl⟩ := decodeFamily59_eq_some h
  exact if_pos (.inl hs)

/-- Only families 0, 5 and 9 read a parameter, and no value of it takes a word's instruction away. -/
theorem decodeWord_of_ironchip {op : Word} {i : Instr} (c : Config) (h : decodeWord ironchip op = some i) :
    decodeWord c op = some i := by
  unfold decodeWord at h ⊢
  split at h
  case h_1 => exact decodeFamily0_of_ironchip c h
  case h_6 | h_10 => exact decodeFamily59_of_ironchip c h
  all_goals exact h

/-- Family 0 matched on the low byte alone. -/
theorem decodeWord_family0_of_lenient {c : Config} (hc : c.decode0Strict = false) (x : Reg) (kk : Byte) :
    decodeWord c (formatXKK 0x0 x kk) = if kk = 0xE0 then some .cls else if kk = 0xEE then some .ret else none := by
  simp [decodeWord, decodeFamily0, hc]

/-- Family 5 with its last nibble ignored. -/
theorem decodeWord_family5_of_lenient {c : Config} (hc : c.decode59Strict = false) (x y : Reg) (z : BitVec 4) :
    decodeWord c (formatXYS 0x5 x y z) = some (.seVV x y) := by
  simp [decodeWord, decodeFamily59, hc]

/-- Family 9 with its last nibble ignored. -/
theorem decodeWord_family9_of_lenient {c : Config} (hc : c.decode59Strict = false) (x y : Reg) (z : BitVec 4) :
    decodeWord c (formatXYS 0x9 x y z) = some (.sneVV x y) := by
  simp [decodeWord, decodeFamily59, hc]

/-- Settles O6: the default words, then the two lenient readings. -/
theorem lenientParametersOnlyAddWords : Obligations.LenientParametersOnlyAddWords :=
  ⟨fun c _ _ => decodeWord_of_ironchip c,
    fun _ x hc => ⟨decodeWord_family0_of_lenient hc x 0xE0, decodeWord_family0_of_lenient hc x 0xEE⟩,
    fun _ x y z hc => ⟨decodeWord_family5_of_lenient hc x y z, decodeWord_family9_of_lenient hc x y z⟩⟩

/-! ### Sample words -/

/-- Settles O1: the decoder run on the nineteen words. -/
theorem sampleWordsDecodeToTheirInstructions : Obligations.SampleWordsDecodeToTheirInstructions := by
  unfold Obligations.SampleWordsDecodeToTheirInstructions
  decide

end Sys2Proof
end

section
/-! PROOF. The shifts of spec/42_alu.md: the result and the evicted bit as numbers (R166, R173, R175). -/

namespace Sys2Proof.Machine

theorem shiftRight_eq_ofNat (a : Byte) : shiftRight a = BitVec.ofNat 8 (a.toNat / 2) := by
  apply BitVec.eq_of_toNat_eq
  simp only [shiftRight, BitVec.toNat_ushiftRight, Nat.shiftRight_eq_div_pow, BitVec.toNat_ofNat]
  omega

theorem shiftLeft_eq_ofNat (a : Byte) : shiftLeft a = BitVec.ofNat 8 (a.toNat * 2 % 256) := by
  apply BitVec.eq_of_toNat_eq
  simp [shiftLeft, Nat.shiftLeft_eq]

theorem lowBitFlag_eq_ofNat (a : Byte) : lowBitFlag a = BitVec.ofNat 8 (a.toNat % 2) := by
  have hbit : a.getLsbD 0 = decide (a.toNat % 2 = 1) := Nat.testBit_zero a.toNat
  rw [lowBitFlag, hbit, flagByte_eq]
  obtain h | h := Nat.mod_two_eq_zero_or_one a.toNat <;> simp [h]

theorem highBitFlag_eq_ofNat (a : Byte) : highBitFlag a = BitVec.ofNat 8 (a.toNat / 128) := by
  have hbit : a.getLsbD 7 = decide (128 ≤ a.toNat) := BitVec.msb_eq_decide a
  rw [highBitFlag, hbit, flagByte_eq]
  obtain h | h : a.toNat / 128 = 0 ∨ a.toNat / 128 = 1 := by omega
  · simp [h, show ¬ 128 ≤ a.toNat by omega]
  · simp [h, show 128 ≤ a.toNat by omega]

/-- Settles O25: the state after each shift, its two writes read as numbers; `stateAfter` does not look at `y`. -/
theorem shiftsStoreTheEvictedBitAndIgnoreY : Obligations.ShiftsStoreTheEvictedBitAndIgnoreY := by
  intro s x y z
  refine ⟨Laws.RoundTrip.shr x y rfl, Laws.RoundTrip.shl x y rfl, ?_, ?_, rfl, rfl⟩
  · rw [exec_of_completes (i := .shr x y) (s := s) trivial, ← shiftRight_eq_ofNat, ← lowBitFlag_eq_ofNat]
    rfl
  · rw [exec_of_completes (i := .shl x y) (s := s) trivial, ← shiftLeft_eq_ofNat, ← highBitFlag_eq_ofNat]
    rfl

end Sys2Proof.Machine
end

section
/-! PROOF. The core cycle of spec/40_core_cycle.md: the step branch by branch (R101 to R107) and its phases (R100), what a
step leaves alone (R106), the frame (R120 to R124), and the invariant along steps and commands (R91, R104). -/

namespace Sys2Proof.Machine

/-! ### The step, branch by branch (R107) -/

theorem stepResult_of_fetch_error {s : State} {e : Fault} (h : fetch s = .error e) : stepResult s = .err e := by
  simp only [stepResult, h]

theorem stepResult_of_decodeWord_none {s : State} {op : Word} (hf : fetch s = .ok op)
    (hd : decodeWord ironchip op = none) : stepResult s = .err (.unrecognizedOpcode op) := by
  simp only [stepResult, hf, decodePhase_of_none hd]

/-- EXECUTE's error ends the step in it, and the state EXECUTE leaves is advanced (R103, R104). -/
theorem stepResult_of_executePhase {s : State} {op : Word} {i : Instr} (hf : fetch s = .ok op)
    (hd : decodeWord ironchip op = some i) :
    stepResult s = StepResult.ofOutcome op (retire (executePhase ironchip i s)) := by
  rw [stepResult_of_decode hf hd, exec_eq_retire]

/-- All that a step in error can be: one of the three phases that can raise has raised it. -/
theorem stepResult_eq_err {s : State} {e : Fault} : stepResult s = .err e ↔
    fetch s = .error e ∨ ∃ op, fetch s = .ok op ∧
      (decodePhase ironchip op = .error e ∨
        ∃ i, decodePhase ironchip op = .ok i ∧ executePhase ironchip i s = .error e) := by
  cases hf : fetch s with
  | error f => simp [stepResult_of_fetch_error hf]
  | ok op =>
    cases hd : decodeWord ironchip op with
    | none => simp [stepResult_of_decodeWord_none hf hd, decodePhase_of_none hd]
    | some i =>
      rw [stepResult_of_executePhase hf hd]
      cases hx : executePhase ironchip i s <;> simp [decodePhase_of_some hd, hx, StepResult.ofOutcome]

/-- Two bytes decode to an instruction, with none left over, exactly if their word does (R70). -/
theorem decode_pair_eq_ok {c : Config} {hi lo : Byte} {i : Instr} :
    decode c [hi, lo] = .ok (i, []) ↔ decodeWord c (wordOfBytes hi lo) = some i := by
  cases hd : decodeWord c (wordOfBytes hi lo) <;> simp [decode, hd]

/-- Settles O8: a branch of `stepResult` for each branch of the pseudocode. -/
theorem stepFollowsThePseudocode : Obligations.StepFollowsThePseudocode := by
  refine fun s => ⟨fun hgt => stepResult_of_fetch_error (fetch_of_gt hgt), ?_⟩
  rintro hle op rfl
  have hf := fetch_of_le hle
  refine ⟨stepResult_of_decodeWord_none hf, fun i hd => ⟨fun e he => ?_, fun u hu => ?_⟩⟩
  · rw [stepResult_of_executePhase hf hd, he]
    rfl
  · rw [stepResult_of_executePhase hf hd, hu]
    rfl

/-- Settles O7: the fetched bytes' word decodes, and the step is `exec` with that word beside its state. -/
theorem stepRunsTheDecodedInstruction : Obligations.StepRunsTheDecodedInstruction := by
  intro s i hle hdec
  have hstep := stepResult_of_decode (fetch_of_le hle) (decode_pair_eq_ok.mp hdec)
  refine ⟨by rw [step, hstep, outcome_ofOutcome], fun t ht => ?_⟩
  rw [hstep, ht]
  rfl

theorem step_of_stepResult_err {s : State} {e : Fault} (h : stepResult s = .err e) : step s = .fault e := by
  rw [step, h, StepResult.outcome]

theorem stepCommand_of_stepResult_err {s : State} {e : Fault} (h : stepResult s = .err e) :
    stepCommand s = .done s (.err e) := by
  simp only [stepCommand, h]

/-- Settles O9: DECODE's error, as `step` and as the command STEP return it. -/
theorem unrecognizedWordRaisesInDecode : Obligations.UnrecognizedWordRaisesInDecode := by
  rintro s op hle rfl hd
  have herr := stepResult_of_decodeWord_none (fetch_of_le hle) hd
  exact ⟨step_of_stepResult_err herr, stepCommand_of_stepResult_err herr⟩

/-! ### The phases (R100) -/

/-- A step that succeeds passes FETCH, DECODE, EXECUTE and ADVANCE. -/
theorem runPhases_of_stepResult_ok {s t : State} {op : Word} (h : stepResult s = .ok op t) :
    runPhases ironchip 4 (.fetch, s) = (.done op, t) := by
  obtain ⟨hf, i, hd, hx⟩ := stepResult_eq_ok.mp h
  rw [exec_eq_retire] at hx
  obtain ⟨u, hu, rfl⟩ := retire_eq_next.mp hx
  simp only [runPhases_succ, runPhases_zero, phaseStep_fetch, hf, phaseStep_decode, decodePhase_of_some hd,
    phaseStep_execute, hu, phaseStep_advance]

/-- A step in error passes the phases before the one that raises, none of which changes the state. -/
theorem runPhases_of_stepResult_err {s : State} {e : Fault} (h : stepResult s = .err e) :
    ∃ k ≤ 3, runPhases ironchip k (.fetch, s) = (.error e, s) := by
  obtain hf | ⟨op, hf, hd | ⟨i, hd, hx⟩⟩ := stepResult_eq_err.mp h
  · exact ⟨1, by omega, by simp only [runPhases_succ, runPhases_zero, phaseStep_fetch, hf]⟩
  · exact ⟨2, by omega, by simp only [runPhases_succ, runPhases_zero, phaseStep_fetch, hf, phaseStep_decode, hd]⟩
  · exact ⟨3, by omega, by
      simp only [runPhases_succ, runPhases_zero, phaseStep_fetch, hf, phaseStep_decode, hd, phaseStep_execute, hx]⟩

/-- Settles O10: the run to DONE, the run to ERROR, and the return to IDLE from both. -/
theorem stepFsmReachesTheStepsResult : Obligations.StepFsmReachesTheStepsResult := by
  refine fun s => ⟨fun op t => runPhases_of_stepResult_ok, fun e => runPhases_of_stepResult_err, ?_⟩
  rintro p t (⟨op, rfl⟩ | ⟨e, rfl⟩) <;> rfl

/-! ### What a step leaves alone (R106) -/

/-- No instruction writes the keypad latch (R34). -/
theorem writtenBy_K (i : Instr) (s : State) : (writtenBy i s).K = s.K := by
  cases i with
  | ldVK x => rw [writtenBy_ldVK_frame]
  | _ => rfl

/-- DT is written by Fx15 (R31). -/
theorem writtenBy_DT (i : Instr) (s : State) :
    (writtenBy i s).DT = s.DT ∨ ∃ x, i = .ldDTV x ∧ (writtenBy i s).DT = s.reg x := by
  cases i with
  | ldDTV x => exact .inr ⟨x, rfl, rfl⟩
  | ldVK x => exact .inl (by rw [writtenBy_ldVK_frame])
  | _ => exact .inl rfl

/-- ST is written by Fx18 (R31). -/
theorem writtenBy_ST (i : Instr) (s : State) :
    (writtenBy i s).ST = s.ST ∨ ∃ x, i = .ldSTV x ∧ (writtenBy i s).ST = s.reg x := by
  cases i with
  | ldSTV x => exact .inr ⟨x, rfl, rfl⟩
  | ldVK x => exact .inl (by rw [writtenBy_ldVK_frame])
  | _ => exact .inl rfl

/-- A stack slot is written by the call that pushes to it, with the call's own address (R143). -/
theorem writtenBy_slot (i : Instr) (s : State) (j : Fin 16) :
    (writtenBy i s).slot j = s.slot j ∨
      ∃ nnn, i = .call nnn ∧ j = s.SP + 1 ∧ (writtenBy i s).slot j = s.PC := by
  cases i with
  | call nnn =>
    have hslot : (writtenBy (.call nnn) s).slot j = if j = s.SP + 1 then s.PC else s.slot j :=
      State.setSlot_slot _ _ _ _
    by_cases hj : j = s.SP + 1
    · exact .inr ⟨nnn, rfl, hj, hslot.trans (if_pos hj)⟩
    · exact .inl (hslot.trans (if_neg hj))
  | ldVK x => exact .inl (by rw [writtenBy_ldVK_frame]; rfl)
  | _ => exact .inl rfl

/-- Settles O43: a step is an `exec`, and each field of the state after one; a call completes below depth 15, so the slot
above SP has number SP + 1. -/
theorem stepsKeepKeysTimersAndUnnamedSlots : Obligations.StepsKeepKeysTimersAndUnnamedSlots := by
  refine ⟨fun s t h => ?_, fun i s t h => ?_⟩
  · obtain ⟨-, i, -, -, hx⟩ := step_cases h
    exact ⟨i, hx⟩
  · obtain ⟨hc, rfl⟩ := exec_eq_next.mp h
    refine ⟨writtenBy_K i s, writtenBy_DT i s, writtenBy_ST i s, fun j => ?_⟩
    obtain hkeep | ⟨nnn, rfl, rfl, hpush⟩ := writtenBy_slot i s j
    · exact .inl hkeep
    · have hne : s.SP.val ≠ 15 := hc
      exact .inr ⟨nnn, rfl, Fin.val_add_one_of_lt' (by omega), hpush⟩

/-! ### The invariant along a step (R104) -/

theorem fetch_eq_ok_le {s : State} {op : Word} (h : fetch s = .ok op) : s.PC.toNat ≤ 0xFFE := by
  by_contra hgt
  rw [fetch_of_gt (by omega)] at h
  cases h

/-- Memory transfers keep the canonical form. -/
theorem wf_writtenBy_M {s : State} (i : Instr) (h : s.M.wf) : (writtenBy i s).M.wf := by
  obtain hkeep | ⟨x, rfl⟩ | ⟨x, rfl⟩ := writtenBy_M i s
  · rwa [hkeep]
  · exact Memory.wf_writeAll _ h _
  · exact Memory.wf_writeAll _ h _

theorem pcAfterSkip_toNat_le {s : State} (cond : Bool) (h : s.PC.toNat ≤ 0xFFE) :
    (pcAfterSkip cond s).toNat ≤ 0x10FE := by
  cases cond <;> simp [pcAfterSkip] <;> omega

/-- From a fetchable PC and slots that are addresses, every target is at most 0x10FE: the highest is 0xFFF + 0xFF, of
Bnnn (R104, R149). -/
theorem pcAfter_toNat_le {s : State} (i : Instr) (hpc : s.PC.toNat ≤ 0xFFE)
    (hslots : ∀ j, (s.slot j).toNat ≤ 0xFFF) : (pcAfter i s).toNat ≤ 0x10FE := by
  have hnext : (s.PC + 2).toNat ≤ 0x10FE := pcAfterSkip_toNat_le false hpc
  cases i with
  | jp nnn | call nnn =>
    simp only [pcAfter, addrOf_toNat]
    omega
  | jpV0 nnn =>
    simp only [pcAfter, indexedTarget_toNat]
    omega
  | ret =>
    have htop := hslots s.SP
    simp only [pcAfter, BitVec.toNat_add, BitVec.reduceToNat]
    omega
  | seVB | sneVB | seVV | sneVV | skp | sknp => exact pcAfterSkip_toNat_le _ hpc
  | ldVK x =>
    simp only [pcAfter]
    split
    · omega
    · exact hnext
  | _ => exact hnext

@[simp] theorem stateAfter_slot (i : Instr) (s : State) (j : Fin 16) :
    (stateAfter i s).slot j = (writtenBy i s).slot j := rfl

/-- A fetched instruction that completes keeps the invariant: a call pushes the PC it was fetched from. -/
theorem inv_stateAfter {s : State} (i : Instr) (hinv : Inv s) (hpc : s.PC.toNat ≤ 0xFFE) : Inv (stateAfter i s) where
  mem := wf_writtenBy_M i hinv.mem
  pc := pcAfter_toNat_le i hpc hinv.slots
  slots j := by
    rw [stateAfter_slot]
    obtain hkeep | ⟨-, -, -, hpush⟩ := writtenBy_slot i s j
    · rw [hkeep]
      exact hinv.slots j
    · rw [hpush]
      omega

/-- Settles O47: a step to a next state is a fetch, so PC was in memory, and an instruction that completed. -/
theorem stepKeepsTheInvariant : Obligations.StepKeepsTheInvariant := by
  intro s t hinv h
  obtain ⟨op, i, hf, -, hx⟩ := step_cases h
  obtain ⟨-, rfl⟩ := exec_eq_next.mp hx
  exact inv_stateAfter i hinv (fetch_eq_ok_le hf)

/-! ### The frame as a run of steps (R120, R121) -/

theorem isDraw_iff {op : Word} : isDraw op = true ↔ op &&& 0xF000 = 0xD000 := beq_iff_eq

/-- The timer's tick in natural numbers, where 0 - 1 is 0 (R120). -/
theorem tickTimer_eq_ofNat (v : Byte) : tickTimer v = BitVec.ofNat 8 (v.toNat - 1) := by
  apply BitVec.eq_of_toNat_eq
  unfold tickTimer
  split <;> simp <;> omega

theorem tick_eq (s : State) : tick s =
    { s with DT := BitVec.ofNat 8 (s.DT.toNat - 1), ST := BitVec.ofNat 8 (s.ST.toNat - 1) } := by
  rw [← tickTimer_eq_ofNat, ← tickTimer_eq_ofNat]
  rfl

/-- The words of a frame that ends in `Ok` under the budget `n` (R121): no draw before the last, and either the budget is
used up or the last is a draw. -/
def IsFrameRun (n : Nat) (ws : List Word) : Prop :=
  ws.length ≤ n ∧ (∀ w ∈ ws.dropLast, ¬ isDraw w = true) ∧
    (ws.length = n ∨ ∃ w, ws.getLast? = some w ∧ isDraw w = true)

theorem isFrameRun_zero {ws : List Word} : IsFrameRun 0 ws ↔ ws = [] := by
  constructor
  · rintro ⟨hlen, -, -⟩
    exact List.length_eq_zero_iff.mp (Nat.le_zero.mp hlen)
  · rintro rfl
    simp [IsFrameRun]

theorem not_isFrameRun_succ_nil (n : Nat) : ¬ IsFrameRun (n + 1) [] := by
  simp [IsFrameRun]

/-- A draw ends the frame (R121). -/
theorem isFrameRun_succ_cons_of_draw {n : Nat} {w : Word} {ws : List Word} (hw : isDraw w = true) :
    IsFrameRun (n + 1) (w :: ws) ↔ ws = [] := by
  cases ws <;> simp [IsFrameRun, hw]

/-- Any other word uses one of the budget (R121). -/
theorem isFrameRun_succ_cons_of_not_draw {n : Nat} {w : Word} {ws : List Word} (hw : ¬ isDraw w = true) :
    IsFrameRun (n + 1) (w :: ws) ↔ IsFrameRun n ws := by
  cases ws with
  | nil => simp [IsFrameRun, hw, eq_comm (a := 0)]
  | cons v ws => simp [IsFrameRun, hw]

/-- A run of steps from `s` whose words satisfy `P`: it is empty, or the step at `s` succeeds and a run follows. -/
theorem exists_stepsTo_iff {P : List Word → Prop} {s t : State} :
    (∃ ws, StepsTo ws s t ∧ P ws) ↔
      (s = t ∧ P []) ∨ ∃ w u, stepResult s = .ok w u ∧ ∃ ws, StepsTo ws u t ∧ P (w :: ws) := by
  constructor
  · rintro ⟨_ | ⟨w, ws⟩, hrun, hP⟩
    · exact .inl ⟨hrun, hP⟩
    · obtain ⟨u, hw, hrun⟩ := hrun
      exact .inr ⟨w, u, hw, ws, hrun, hP⟩
  · rintro (⟨heq, hP⟩ | ⟨w, u, hw, ws, hrun, hP⟩)
    · exact ⟨[], heq, hP⟩
    · exact ⟨w :: ws, ⟨u, hw, hrun⟩, hP⟩

/-- The step loop ends in `Ok` exactly at the end of a frame's run. -/
theorem frameLoop_eq_ok {n : Nat} {s t : State} :
    frameLoop stepResult n s = .ok t ↔ ∃ ws, StepsTo ws s t ∧ IsFrameRun n ws := by
  induction n generalizing s with
  | zero => simp [frameLoop, isFrameRun_zero, StepsTo]
  | succ n ih =>
    rw [exists_stepsTo_iff, frameLoop]
    cases hs : stepResult s with
    | err e => simp [not_isFrameRun_succ_nil]
    | refused r => simp [not_isFrameRun_succ_nil]
    | ok w u =>
      by_cases hw : isDraw w = true
      · simp [hw, not_isFrameRun_succ_nil, isFrameRun_succ_cons_of_draw hw, StepsTo]
      · simp [hw, not_isFrameRun_succ_nil, isFrameRun_succ_cons_of_not_draw hw, ih]

/-- The step loop ends in an error exactly where fewer than `n` steps, none a draw, lead to a step that ends in it. -/
theorem frameLoop_eq_err {n : Nat} {s t : State} {e : Fault} :
    frameLoop stepResult n s = .err e t ↔
      ∃ ws, StepsTo ws s t ∧ ws.length < n ∧ (∀ w ∈ ws, ¬ isDraw w = true) ∧ stepResult t = .err e := by
  induction n generalizing s with
  | zero => simp [frameLoop]
  | succ n ih =>
    have hempty : (s = t ∧ stepResult t = .err e) ↔ (stepResult s = .err e ∧ s = t) := by
      rw [and_comm]
      exact and_congr_left fun heq => by rw [heq]
    rw [exists_stepsTo_iff, frameLoop]
    cases hs : stepResult s with
    | err f => simp [hempty, hs]
    | refused r => simp [hempty, hs]
    | ok w u =>
      by_cases hw : isDraw w = true
      · simp [hempty, hs, hw]
      · simp [hempty, hs, hw, ih]

/-- Settles O50: the loop from the ticked state, ending in `Ok` and ending in an error. -/
theorem frameTicksOnceAndRunsUpToNSteps : Obligations.FrameTicksOnceAndRunsUpToNSteps := by
  intro n s t
  simp only [← tick_eq, ne_eq, ← isDraw_iff]
  exact ⟨frameLoop_eq_ok, fun e => frameLoop_eq_err⟩

/-! ### A blocked key wait (R122) -/

/-- With no key pressed, Fx0A leaves the whole state as it was (R236). -/
theorem stateAfter_ldVK_of_no_key {s : State} (x : Reg) (h : ∀ k, s.key k = false) : stateAfter (.ldVK x) s = s := by
  have hnone : lowestKey s = none := lowestKey_eq_none.mpr h
  simp only [stateAfter, writtenBy, pcAfter, hnone, if_true]
  rfl

/-- Where Fx0A is fetched and no key is pressed, the step succeeds and changes nothing. -/
theorem stepResult_of_blocked {s : State} {x : Reg} (hf : fetch s = .ok (encode (.ldVK x)))
    (hkey : ∀ k, s.key k = false) : stepResult s = .ok (encode (.ldVK x)) s := by
  have hx := exec_of_completes (i := .ldVK x) (s := s) trivial
  rw [stateAfter_ldVK_of_no_key x hkey] at hx
  exact stepResult_eq_ok.mpr ⟨hf, .ldVK x, Laws.RoundTrip.ldVK x rfl, hx⟩

theorem stepsTo_replicate {s : State} {op : Word} (h : stepResult s = .ok op s) (n : Nat) :
    StepsTo (List.replicate n op) s s := by
  induction n with
  | zero => rfl
  | succ n ih => exact ⟨s, h, ih⟩

/-- Words that are no draw make up a frame's run when there are as many as its budget. -/
theorem isFrameRun_replicate {op : Word} (h : ¬ isDraw op = true) (n : Nat) :
    IsFrameRun n (List.replicate n op) := by
  refine ⟨by simp, fun w hw => ?_, .inl (by simp)⟩
  rwa [List.eq_of_mem_replicate (List.mem_of_mem_dropLast hw)]

theorem ldVK_not_draw (x : Reg) : ¬ isDraw (encode (.ldVK x)) = true := by
  have hmask : encode (.ldVK x) &&& 0xF000 = formatXKK 0xF 0 0 := formatXKK_and_F000 0xF x 0x0A
  rw [isDraw_iff, hmask]
  decide

/-- Settles O51: the blocked step is a fixed point, at the state and at the ticked state, which fetches the same word. -/
theorem blockedKeyWaitUsesTheWholeFrame : Obligations.BlockedKeyWaitUsesTheWholeFrame := by
  rintro s x n op hle rfl hbytes hkey
  have hf : fetch s = .ok (encode (.ldVK x)) := (fetch_of_le hle).trans (congrArg _ hbytes)
  have htick : stepResult (tick s) = .ok (encode (.ldVK x)) (tick s) := stepResult_of_blocked hf hkey
  have hrun := stepsTo_replicate htick n
  exact ⟨stepResult_of_blocked hf hkey, hrun, frameLoop_eq_ok.mpr ⟨_, hrun, isFrameRun_replicate (ldVK_not_draw x) n⟩⟩

/-! ### The invariant along the host's commands (R91, R133) -/

/-- The invariant speaks of memory, PC and the slots only. -/
theorem Inv.of_frame {s t : State} (h : Inv s) (hM : t.M = s.M) (hPC : t.PC = s.PC) (hS : t.S = s.S) : Inv t where
  mem := hM ▸ h.mem
  pc := hPC ▸ h.pc
  slots j := by
    simp only [State.slot, hS]
    exact h.slots j

theorem Inv.setM {s : State} {m : Memory} (h : Inv s) (hm : m.wf) : Inv (s.setM m) := ⟨hm, h.pc, h.slots⟩

theorem Inv.setPC {s : State} {v : Word} (h : Inv s) (hv : v.toNat ≤ 0x10FE) : Inv (s.setPC v) := ⟨h.mem, hv, h.slots⟩

theorem Inv.setSlot {s : State} {v : Word} (h : Inv s) (j : Fin 16) (hv : v.toNat ≤ 0xFFF) : Inv (s.setSlot j v) where
  mem := h.mem
  pc := h.pc
  slots q := by
    rw [State.setSlot_slot]
    split
    · exact hv
    · exact h.slots q

theorem Inv.tick {s : State} (h : Inv s) : Inv (tick s) := h.of_frame rfl rfl rfl

theorem Inv.of_stepsTo {ws : List Word} {s t : State} (h : Inv s) (hrun : StepsTo ws s t) : Inv t := by
  induction ws generalizing s with
  | nil =>
    obtain rfl : s = t := hrun
    exact h
  | cons w ws ih =>
    obtain ⟨u, hw, hrun⟩ := hrun
    exact ih (stepKeepsTheInvariant s u h (step_eq_next.mpr ⟨w, hw⟩)) hrun

theorem Inv.of_loadRom {b : List Byte} {s t : State} {r : Result} (h : Inv s) (hd : loadRom b s = .done t r) : Inv t := by
  unfold loadRom at hd
  split at hd <;> cases hd
  · exact h
  · exact h.setM (Memory.wf_writeAll b h.mem 0x200)

theorem Inv.of_stepCommand {s t : State} {r : Result} (h : Inv s) (hd : stepCommand s = .done t r) : Inv t := by
  unfold stepCommand at hd
  split at hd <;> cases hd
  case h_1 op hs => exact stepKeepsTheInvariant s t h (step_eq_next.mpr ⟨op, hs⟩)
  case h_2 => exact h

/-- A frame leaves a state its steps led to, also when it ends in an error. -/
theorem Inv.of_frameCommand {n : Nat} {s t : State} {r : Result} (h : Inv s) (hd : frameCommand n s = .done t r) :
    Inv t := by
  unfold frameCommand at hd
  split at hd <;> cases hd
  case h_1 hs =>
    obtain ⟨ws, hrun, -⟩ := frameLoop_eq_ok.mp hs
    exact h.tick.of_stepsTo hrun
  case h_2 hs =>
    obtain ⟨ws, hrun, -⟩ := frameLoop_eq_err.mp hs
    exact h.tick.of_stepsTo hrun

theorem Inv.of_keyEvent {down : Bool} {k : Nat} {s t : State} {r : Result} (h : Inv s)
    (hd : keyEvent down k s = .done t r) : Inv t := by
  unfold keyEvent at hd
  split at hd <;> cases hd
  exact h.of_frame rfl rfl rfl

theorem Inv.of_dbgGetCommand {f : DbgField} {s t : State} {r : Result} (h : Inv s)
    (hd : dbgGetCommand f s = .done t r) : Inv t := by
  unfold dbgGetCommand at hd
  split at hd <;> cases hd <;> exact h

/-- A debug set checks PC and slots against 0xFFF before it writes them (R133). -/
theorem Inv.of_dbgSet {w : DbgWrite} {s t : State} (h : Inv s) (hd : dbgSet w s = .ok t) : Inv t := by
  cases w <;> simp only [dbgSet] at hd
  case mem a v =>
    split at hd <;> cases hd
    exact h.setM (Memory.wf_write h.mem a v)
  case pc v =>
    split at hd <;> cases hd
    exact h.setPC (by omega)
  case slot j v =>
    split at hd
    · split at hd <;> cases hd
      exact h.setSlot _ (by omega)
    · cases hd
  case reg | pixel | index | sp | key =>
    split at hd <;> cases hd
    exact h.of_frame rfl rfl rfl
  case delay | sound =>
    cases hd
    exact h.of_frame rfl rfl rfl

theorem Inv.of_dbgSetCommand {w : DbgWrite} {s t : State} {r : Result} (h : Inv s)
    (hd : dbgSetCommand w s = .done t r) : Inv t := by
  unfold dbgSetCommand at hd
  split at hd <;> cases hd
  · exact h.of_dbgSet ‹_›
  · exact h

/-- Settles O48, command by command. -/
theorem everyCommandKeepsTheInvariant : Obligations.EveryCommandKeepsTheInvariant := by
  intro c s t r h hd
  cases c with
  | reset =>
    cases hd
    exact resetSatisfiesTheInvariant.of_frame rfl rfl rfl
  | loadRom b => exact h.of_loadRom hd
  | step => exact h.of_stepCommand hd
  | frame n => exact h.of_frameCommand hd
  | keyDown k => exact h.of_keyEvent hd
  | keyUp k => exact h.of_keyEvent hd
  | dbgGet f => exact h.of_dbgGetCommand hd
  | dbgSet w => exact h.of_dbgSetCommand hd

theorem Inv.of_runCommands {cs : List Command} {s t : State} (h : Inv s) (hrun : runCommands cs s = some t) : Inv t := by
  induction cs generalizing s with
  | nil =>
    cases hrun
    exact h
  | cons c cs ih =>
    cases hd : command c s with
    | done u r =>
      rw [runCommands, hd] at hrun
      exact ih (everyCommandKeepsTheInvariant c s u r h hd) hrun
    | refused f =>
      rw [runCommands, hd] at hrun
      cases hrun

/-- Settles O49: the invariant holds at reset and along every command. -/
theorem reachableStatesSatisfyTheInvariant : Obligations.ReachableStatesSatisfyTheInvariant :=
  fun _ _ hrun => Inv.of_runCommands resetSatisfiesTheInvariant hrun

end Sys2Proof.Machine
end

section
/-! PROOF. Control flow of spec/41_flow.md: the skips on immediates (R144 to R146), and nested calls with their returns
(R141, R143). -/

namespace Sys2Proof.Machine

/-! ### Skips on immediates (R145, R146) -/

/-- SE leaves PC at the skip's target and nothing else changed (R145). -/
theorem exec_seVB (x : Reg) (kk : Byte) (s : State) :
    exec (.seVB x kk) s = .next (s.setPC (pcAfterSkip (s.reg x == kk) s)) :=
  exec_of_completes (i := .seVB x kk) trivial

/-- SNE is SE with the comparison negated (R146). -/
theorem exec_sneVB (x : Reg) (kk : Byte) (s : State) :
    exec (.sneVB x kk) s = .next (s.setPC (pcAfterSkip (s.reg x != kk) s)) :=
  exec_of_completes (i := .sneVB x kk) trivial

/-- Settles O19: the two words decode, and the skip's condition is the comparison. -/
theorem skipsOnImmediate : Obligations.SkipsOnImmediate := by
  intro s x kk
  refine ⟨Laws.RoundTrip.seVB x kk rfl, Laws.RoundTrip.sneVB x kk rfl, ?_, ?_⟩
  · simp [exec_seVB, pcAfterSkip, State.setPC, State.reg_eq]
  · simp [exec_sneVB, pcAfterSkip, State.setPC, State.reg_eq]

/-! ### Nested calls and their returns (R141, R143) -/

theorem execAll_append {is : List Instr} {s t : State} (js : List Instr) (h : execAll is s = .next t) :
    execAll (is ++ js) s = execAll js t := by
  induction is generalizing s with
  | nil =>
    cases h
    rfl
  | cons i is ih =>
    cases hx : exec i s with
    | next u =>
      simp only [execAll, List.cons_append, hx] at h ⊢
      exact ih h
    | fault e => simp [execAll, hx] at h
    | refused r => simp [execAll, hx] at h

/-- What a subroutine keeps: everything but PC and the slots above SP. -/
structure KeepsCaller (s t : State) : Prop where
  slots : ∀ j : Fin 16, j ≤ s.SP → t.slot j = s.slot j
  rest : t = { s with PC := t.PC, S := t.S }

theorem KeepsCaller.refl (s : State) : KeepsCaller s s := ⟨fun _ _ => rfl, rfl⟩

theorem KeepsCaller.SP_eq {s t : State} (h : KeepsCaller s t) : t.SP = s.SP := by rw [h.rest]

/-- The slot a call pushes holds the call's own address (R143). -/
theorem stateAfter_call_slot_SP (nnn : BitVec 12) (s : State) :
    (stateAfter (.call nnn) s).slot (stateAfter (.call nnn) s).SP = s.PC :=
  (State.setSlot_slot _ _ _ _).trans (if_pos rfl)

/-- Below depth 15 a call, a body that keeps its caller, and a return end two bytes past the call and keep the call's own
caller (R141). -/
theorem execAll_call_body_ret {nnn : BitVec 12} {body : List Instr} {s t : State} (hlt : s.SP.val + 1 < 16)
    (hbody : execAll body (stateAfter (.call nnn) s) = .next t) (hkeep : KeepsCaller (stateAfter (.call nnn) s) t) :
    ∃ u, execAll (.call nnn :: body ++ [.ret]) s = .next u ∧ u.PC = s.PC + 2 ∧ KeepsCaller s u := by
  have hcall : Completes (.call nnn) s := show s.SP.val ≠ 15 by omega
  have hup := stateAfter_call_SP nnn hlt
  have hsp := hkeep.SP_eq
  have hret : Completes .ret t := show t.SP.val ≠ 0 by rw [hsp]; omega
  have hrun : execAll (.call nnn :: body) s = .next t := (execAll_cons_of_completes body hcall).trans hbody
  refine ⟨stateAfter .ret t, ?_, ?_, ?_, ?_⟩
  · rw [execAll_append [.ret] hrun, execAll_cons_of_completes [] hret, execAll]
  · rw [stateAfter_PC, pcAfter, hsp, hkeep.slots _ le_rfl, stateAfter_call_slot_SP]
  · intro j hj
    have hj' : j ≤ (stateAfter (.call nnn) s).SP := Fin.le_def.mpr (by have := Fin.le_def.mp hj; omega)
    calc (stateAfter .ret t).slot j = t.slot j := rfl
      _ = (stateAfter (.call nnn) s).slot j := hkeep.slots j hj'
      _ = s.slot j := stateAfter_call_slot_of_le nnn hlt hj
  · have hdown : t.SP - 1 = s.SP := by
      rw [hsp]
      exact add_sub_cancel_right s.SP 1
    rw [stateAfter, writtenBy, hdown, hkeep.rest]
    rfl

/-- Calls that fit below depth 15 and as many returns keep the caller, and end two bytes past the first call. -/
theorem execAll_calls_rets (ts : List (BitVec 12)) (s : State) (h : s.SP.val + ts.length ≤ 15) :
    ∃ t, execAll (ts.map Instr.call ++ List.replicate ts.length Instr.ret) s = .next t ∧
      (ts ≠ [] → t.PC = s.PC + 2) ∧ KeepsCaller s t := by
  induction ts generalizing s with
  | nil => exact ⟨s, rfl, fun hne => absurd rfl hne, .refl s⟩
  | cons nnn ts ih =>
    rw [List.length_cons] at h
    have hlt : s.SP.val + 1 < 16 := by omega
    have hup := stateAfter_call_SP nnn hlt
    obtain ⟨t, hbody, -, hkeep⟩ := ih (stateAfter (.call nnn) s) (by omega)
    obtain ⟨u, hrun, hpc, hkeep⟩ := execAll_call_body_ret hlt hbody hkeep
    refine ⟨u, ?_, fun _ => hpc, hkeep⟩
    rw [← hrun, List.length_cons, List.replicate_succ', List.map_cons, ← List.append_assoc, List.cons_append]

/-- Settles O17: the run of calls and returns, from a nonempty list of targets. -/
theorem nestedCallsReturnBehindTheFirstCall : Obligations.NestedCallsReturnBehindTheFirstCall := by
  intro s ts hne hfit
  obtain ⟨t, hrun, hpc, hslots, hrest⟩ := execAll_calls_rets ts s hfit
  have hpc := hpc hne
  exact ⟨t, hrun, hpc, hslots, hpc ▸ hrest⟩

end Sys2Proof.Machine
end

section
/-! PROOF. Loads, logic, addition and subtraction of spec/42_alu.md (R160 to R165, R171, R172, R174), and the order of a
flag instruction's two writes (R170). -/

namespace Sys2Proof.Machine

/-! ### Results and flags as numbers (R166) -/

theorem addBytes_eq_ofNat (a b : Byte) : addBytes a b = BitVec.ofNat 8 ((a.toNat + b.toNat) % 256) :=
  BitVec.eq_of_toNat_eq (by simp [addBytes])

theorem subBytes_eq_ofNat (a b : Byte) : subBytes a b = BitVec.ofNat 8 ((a.toNat + 256 - b.toNat) % 256) := by
  apply BitVec.eq_of_toNat_eq
  have hb := b.isLt
  simp only [subBytes, BitVec.toNat_sub, BitVec.toNat_ofNat]
  omega

theorem carryFlag_eq_ite (a b : Byte) : carryFlag a b = if a.toNat + b.toNat > 255 then 1 else 0 := by
  simp only [carryFlag, flagByte_eq, decide_eq_true_eq]

theorem notBorrowFlag_eq_ite (a b : Byte) : notBorrowFlag a b = if a.toNat ≥ b.toNat then 1 else 0 := by
  simp only [notBorrowFlag, flagByte_eq, decide_eq_true_eq]

/-- A flag is at most 1, so a right shift leaves nothing of it. -/
theorem shiftRight_flagByte (b : Bool) : shiftRight (flagByte b) = 0 := by
  cases b <;> rfl

theorem shiftLeft_highBitFlag (a : Byte) : shiftLeft (highBitFlag a) = BitVec.ofNat 8 (2 * (a.toNat / 128)) := by
  apply BitVec.eq_of_toNat_eq
  rw [shiftLeft_eq_ofNat, highBitFlag_eq_ofNat]
  simp only [BitVec.toNat_ofNat]
  omega

/-! ### The order of the two writes (R170) -/

theorem State.setReg_comm {r q : Reg} (h : r ≠ q) (v w : Byte) (s : State) :
    (s.setReg r v).setReg q w = (s.setReg q w).setReg r v :=
  congrArg (fun V => { s with V }) (Vector.set_comm v w (Fin.val_ne_of_ne h))

theorem State.setReg_setReg_same (r : Reg) (v w : Byte) (s : State) : (s.setReg r v).setReg r w = s.setReg r w :=
  congrArg (fun V => { s with V }) (Vector.set_set v r.isLt)

/-- For x other than F the two writes commute, and the flag write does not reach the late operand V[x]. -/
theorem writeResultAndFlag_of_ne_vf {x : Reg} {res : Byte} {late : Byte → Byte} {s : State} (hx : x ≠ Reg.vf)
    (hlate : late (s.reg x) = res) (c : Config) (flag : Byte) :
    writeResultAndFlag c x res flag late s = (s.setReg x res).setReg Reg.vf flag := by
  unfold writeResultAndFlag
  split
  · rfl
  · simp only [State.setReg_reg, if_neg hx, hlate]
    exact State.setReg_comm hx.symm flag res s

/-- So for x other than F no parameter matters. -/
theorem writeResultAndFlag_eq_ironchip {x : Reg} {res : Byte} {late : Byte → Byte} {s : State} (hx : x ≠ Reg.vf)
    (hlate : late (s.reg x) = res) (c : Config) (flag : Byte) :
    writeResultAndFlag c x res flag late s = writeResultAndFlag ironchip x res flag late s := by
  rw [writeResultAndFlag_of_ne_vf hx hlate, writeResultAndFlag_of_ne_vf hx hlate]

/-- With the flag written first and x = F, the late operand is the flag, and the result overwrites it. -/
theorem writeResultAndFlag_vf_of_flagFirst {c : Config} (hc : c.flagLast = false) (res flag : Byte)
    (late : Byte → Byte) (s : State) :
    writeResultAndFlag c Reg.vf res flag late s = s.setReg Reg.vf (late flag) := by
  simp [writeResultAndFlag, hc, State.setReg_setReg_same]

/-- Settles O26. A flag instruction is its two writes: they commute for x other than F, and at x = F the flag-first
order leaves the result, which SHR and SHL compute from the flag. -/
theorem flagWriteOrderUnderBothReadings : Obligations.FlagWriteOrderUnderBothReadings := by
  refine ⟨fun c s x y hx => ?_, fun c s y hc => ?_⟩
  · have same {res flag : Byte} {late : Byte → Byte} (hlate : late (s.reg x) = res) :=
      congrArg (Except.ok : State → Effect) (writeResultAndFlag_eq_ironchip hx hlate c flag)
    exact ⟨same rfl, same rfl, same rfl, same rfl, same rfl⟩
  · have overwritten {res flag v : Byte} {late : Byte → Byte} (hv : late flag = v) :
        (.ok (writeResultAndFlag c Reg.vf res flag late s) : Effect) = .ok (s.setReg Reg.vf v) := by
      rw [writeResultAndFlag_vf_of_flagFirst hc, hv]
    exact ⟨overwritten rfl, overwritten rfl, overwritten rfl, overwritten (shiftRight_flagByte _),
      overwritten (shiftLeft_highBitFlag _)⟩

/-! ### Loads, logic, addition and subtraction (R160 to R165, R171, R172, R174) -/

/-- Settles O22: the two words decode, and the sum is read as a number. -/
theorem immediateLoadAndAdd : Obligations.ImmediateLoadAndAdd := by
  intro s x kk
  refine ⟨Laws.RoundTrip.ldVB x kk rfl, Laws.RoundTrip.addVB x kk rfl,
    exec_of_completes (i := .ldVB x kk) trivial, ?_⟩
  rw [exec_of_completes (i := .addVB x kk) (s := s) trivial, ← addBytes_eq_ofNat]
  rfl

/-- Settles O23: the four words decode, and `stateAfter` is the one register write. -/
theorem moveAndLogicWriteNoFlag : Obligations.MoveAndLogicWriteNoFlag := by
  intro s x y
  exact ⟨Laws.RoundTrip.ldVV x y rfl, Laws.RoundTrip.orVV x y rfl, Laws.RoundTrip.andVV x y rfl,
    Laws.RoundTrip.xorVV x y rfl,
    exec_of_completes (i := .ldVV x y) trivial, exec_of_completes (i := .orVV x y) trivial,
    exec_of_completes (i := .andVV x y) trivial, exec_of_completes (i := .xorVV x y) trivial⟩

/-- Settles O24: the three words decode; each state after is the result and then the flag, both read as numbers. -/
theorem additionAndSubtractionSetVF : Obligations.AdditionAndSubtractionSetVF := by
  intro s x y
  refine ⟨Laws.RoundTrip.addVV x y rfl, Laws.RoundTrip.sub x y rfl, Laws.RoundTrip.subn x y rfl, ?_, ?_, ?_⟩
  · rw [exec_of_completes (i := .addVV x y) (s := s) trivial, ← addBytes_eq_ofNat, ← carryFlag_eq_ite]
    rfl
  · rw [exec_of_completes (i := .sub x y) (s := s) trivial, ← subBytes_eq_ofNat, ← notBorrowFlag_eq_ite]
    rfl
  · rw [exec_of_completes (i := .subn x y) (s := s) trivial, ← subBytes_eq_ofNat, ← notBorrowFlag_eq_ite]
    rfl

end Sys2Proof.Machine
end

section
/-! PROOF. The index register and memory of spec/43_index_memory.md. -/

namespace Sys2Proof.Machine

/-- Settles O28: the word decodes, `stateAfter` writes I and PC alone, and the address written is nnn zero-extended. -/
theorem loadIndexImmediate : Obligations.LoadIndexImmediate := by
  intro s nnn
  refine ⟨Laws.RoundTrip.ldI nnn rfl, ?_, ?_, Nat.le_of_lt_succ nnn.isLt⟩
  · rw [exec_of_completes (i := .ldI nnn) trivial, ← addrOf_eq_ofNat]
    rfl
  · rw [← addrOf_eq_ofNat, addrOf_toNat]

end Sys2Proof.Machine
end

section
/-! PROOF. The timers and the key wait of spec/45_keypad_timers.md (R232 to R234, R236), and that ST has no influence on
any other part of the state. -/

namespace Sys2Proof.Machine

/-! ### The delay timer (R232, R233) -/

theorem tickTimer_toNat (v : Byte) : (tickTimer v).toNat = v.toNat - 1 := by
  rw [tickTimer_eq_ofNat, BitVec.toNat_ofNat]
  omega

/-- Settles O38: the two moves, the one writer of DT among the instructions, and the tick of the value written. -/
theorem delayTimerMoves : Obligations.DelayTimerMoves := by
  intro s x
  refine ⟨Laws.RoundTrip.ldVDT x rfl, Laws.RoundTrip.ldDTV x rfl, exec_of_completes (i := .ldVDT x) trivial,
    exec_of_completes (i := .ldDTV x) trivial, fun i t hx hne => ?_, tickTimer_toNat s.V[x]⟩
  obtain ⟨-, rfl⟩ := exec_eq_next.mp hx
  obtain hkeep | ⟨y, rfl, -⟩ := writtenBy_DT i s
  · exact hkeep
  · exact absurd rfl (hne y)

/-! ### The sound timer is never read (R234)

EXECUTE commutes with a change of ST: first its shared operations, then every instruction but Fx18. -/

theorem withData_setST (w : Byte) {s : State} (n : Nat) {body body' : Effect}
    (h : body' = body.map (·.setST w)) : withData (s.setST w) n body' = (withData s n body).map (·.setST w) := by
  have hpast : dataPastEnd (s.setST w) n = dataPastEnd s n := rfl
  unfold withData
  rw [hpast]
  split
  · rfl
  · exact h

theorem skipIf_setST (w : Byte) (cond : Bool) (s : State) : skipIf cond (s.setST w) = (skipIf cond s).setST w := by
  cases cond <;> rfl

/-- The key skips: a condition on the key the register names (R230, R231). -/
theorem withKey_skipIf_setST (w v : Byte) (cond : Reg → Bool) (s : State) :
    withKey v (fun k => .ok (skipIf (cond k) (s.setST w))) =
      (withKey v (fun k => .ok (skipIf (cond k) s))).map (·.setST w) := by
  unfold withKey
  split
  · exact congrArg Except.ok (skipIf_setST w _ s)
  · rfl

/-- EXECUTE of any instruction but Fx18 hands ST through and does not look at it, in success and in error. -/
theorem executePhase_setST {i : Instr} (h : ∀ x, i ≠ .ldSTV x) (w : Byte) (s : State) :
    executePhase ironchip i (s.setST w) = (executePhase ironchip i s).map (·.setST w) := by
  cases i with
  | ldSTV x => exact absurd rfl (h x)
  | seVB x kk => exact congrArg Except.ok (skipIf_setST w (s.reg x == kk) s)
  | sneVB x kk => exact congrArg Except.ok (skipIf_setST w (s.reg x != kk) s)
  | seVV x y => exact congrArg Except.ok (skipIf_setST w (s.reg x == s.reg y) s)
  | sneVV x y => exact congrArg Except.ok (skipIf_setST w (s.reg x != s.reg y) s)
  | skp x => exact withKey_skipIf_setST w (s.reg x) s.key s
  | sknp x => exact withKey_skipIf_setST w (s.reg x) (fun k => !s.key k) s
  | ret =>
    simp only [executePhase, retEffect, apply_ite (Except.map (State.setST · w))]
    rfl
  | call nnn =>
    simp only [executePhase, callEffect, apply_dite (Except.map (State.setST · w))]
    rfl
  | ldVK x =>
    have hkey : lowestKey (s.setST w) = lowestKey s := rfl
    simp only [executePhase, ldVKEffect, hkey]
    cases lowestKey s <;> rfl
  | drw x y n => exact withData_setST w n rfl
  | ldBV x => exact withData_setST w 3 rfl
  | ldMV x => exact withData_setST w (x.val + 1) rfl
  | ldVM x => exact withData_setST w (x.val + 1) (congrArg Except.ok (List.foldl_hom (State.setST · w) fun _ _ => rfl))
  | _ => rfl

theorem exec_setST_of_next {i : Instr} {s t : State} (h : ∀ x, i ≠ .ldSTV x) (w : Byte) (hx : exec i s = .next t) :
    exec i (s.setST w) = .next (t.setST w) := by
  rw [exec_eq_retire] at hx ⊢
  obtain ⟨u, hu, rfl⟩ := retire_eq_next.mp hx
  rw [executePhase_setST h, hu]
  rfl

theorem exec_setST_of_fault {i : Instr} {s : State} {e : Fault} (h : ∀ x, i ≠ .ldSTV x) (w : Byte)
    (hx : exec i s = .fault e) : exec i (s.setST w) = .fault e := by
  rw [exec_eq_retire] at hx ⊢
  rw [executePhase_setST h, retire_eq_fault.mp hx]
  rfl

/-- Fx18 overwrites ST, so the ST before it is lost. -/
theorem exec_ldSTV_setST (x : Reg) (w : Byte) (s : State) : exec (.ldSTV x) (s.setST w) = exec (.ldSTV x) s := rfl

/-- Settles O39: the write, the buzzer on the value written, and the independence of ST, where Fx18 stands apart. -/
theorem soundTimerIsWrittenAndNeverRead : Obligations.SoundTimerIsWrittenAndNeverRead := by
  intro s x
  refine ⟨Laws.RoundTrip.ldSTV x rfl, exec_of_completes (i := .ldSTV x) trivial, by simp [State.buzzer],
    fun h1 => by rw [h1, tick_eq]; rfl, fun i w => ?_⟩
  by_cases hi : ∃ y, i = .ldSTV y
  · obtain ⟨y, rfl⟩ := hi
    have hsame := exec_ldSTV_setST y w s
    exact ⟨fun t hx => ⟨t, hsame.trans hx, rfl, .inr rfl⟩, fun e hx => hsame.trans hx⟩
  · have hne : ∀ y, i ≠ .ldSTV y := not_exists.mp hi
    exact ⟨fun t hx => ⟨t.setST w, exec_setST_of_next hne w hx, rfl, .inl rfl⟩, fun e => exec_setST_of_fault hne w⟩

/-! ### The key wait (R236) -/

/-- With a key pressed, Fx0A loads the lowest one's number (R236). -/
theorem stateAfter_ldVK_of_lowestKey {s : State} {k : Reg} (x : Reg) (h : lowestKey s = some k) :
    stateAfter (.ldVK x) s = (s.setReg x (BitVec.ofNat 8 k.val)).setPC (s.PC + 2) := by
  simp [stateAfter, writtenBy, pcAfter, h]

/-- Settles O40: the two states after, by whether a lowest pressed key exists. -/
theorem keyWaitRepeatsOrTakesTheLowestKey : Obligations.KeyWaitRepeatsOrTakesTheLowestKey := by
  intro s x
  refine ⟨Laws.RoundTrip.ldVK x rfl, fun hnone => ?_, fun k hk hlow => ?_⟩
  · rw [exec_of_completes (i := .ldVK x) trivial, stateAfter_ldVK_of_no_key x hnone]
  · rw [exec_of_completes (i := .ldVK x) trivial, stateAfter_ldVK_of_lowestKey x (lowestKey_eq_some.mpr ⟨hk, hlow⟩)]
    rfl

end Sys2Proof.Machine
end

section
/-! PROOF. The errors of spec/60_exceptions.md: each shared operation's error with its cause, the errors of the
instructions (R257), and which command returns an error in which state (R256). -/

namespace Sys2Proof.Machine

/-! ### The errors of the operations that check (R230, R193, R141, R143) -/

/-- A checked access ends in an error exactly where it reaches past 0xFFF, and the error names that access. -/
theorem withData_ok_eq_error {s t : State} {n : Nat} {e : Fault} : withData s n (.ok t) = .error e ↔
    (n > 0 ∧ s.I.toNat + (n - 1) > 0xFFF) ∧ e = .execAddrOutOfBounds (max s.I.toNat 0x1000) := by
  by_cases h : n > 0 ∧ s.I.toNat + (n - 1) > 0xFFF
  · simp [withData_of_gt h.1 h.2, h, raise, eq_comm]
  · rw [withData_of_le (by omega)]
    simp [h]

/-- A key number is refused exactly above 15. -/
theorem withKey_ok_eq_error {v : Byte} {f : Reg → State} {e : Fault} :
    withKey v (fun k => .ok (f k)) = .error e ↔ v.toNat > 15 ∧ e = .keyOutOfBounds v.toNat := by
  by_cases h : v.toNat < 16
  · rw [withKey_of_lt h]
    simp [Nat.le_of_lt_succ h]
  · simp [withKey_of_ge h, Nat.lt_of_not_le (mt Nat.lt_succ_of_le h), raise, eq_comm]

theorem retEffect_eq_error {s : State} {e : Fault} :
    retEffect s = .error e ↔ s.SP.val = 0 ∧ e = .spOutOfBounds 0 := by
  unfold retEffect
  split <;> simp [*, raise, eq_comm]

theorem callEffect_eq_error {nnn : BitVec 12} {s : State} {e : Fault} :
    callEffect nnn s = .error e ↔ s.SP.val = 15 ∧ e = .spOutOfBounds 16 := by
  unfold callEffect
  split
  · have hne : s.SP.val ≠ 15 := by omega
    simp [hne]
  · have heq : s.SP.val = 15 := by omega
    simp [heq, raise, eq_comm]

/-! ### The errors of the instructions (R257) -/

/-- All that an instruction in error can be: EXECUTE has raised that error (R103). -/
theorem exec_eq_fault {i : Instr} {s : State} {e : Fault} :
    exec i s = .fault e ↔ executePhase ironchip i s = .error e := by
  rw [exec_eq_retire, retire_eq_fault]

/-- An instruction within its software limits (R288) ends in no error. -/
theorem exec_ne_fault_of_completes {i : Instr} {s : State} {e : Fault} (h : Completes i s) : exec i s ≠ .fault e := by
  simp [exec_of_completes h]

/-- The larger of I and 0x1000 is the lowest address above 0xFFF of an access that reaches past the end (R254). -/
theorem exists_lowest_address_above {a k : Nat} (h : a + k > 0xFFF) :
    ∃ j, j ≤ k ∧ max a 0x1000 = a + j ∧ ∀ l < j, a + l ≤ 0xFFF :=
  ⟨max a 0x1000 - a, by omega, by omega, by omega⟩

/-- Settles O12: the eight instructions that check by the error of their check, the others by their completion. -/
theorem instructionErrorsHaveTheirOneCause : Obligations.InstructionErrorsHaveTheirOneCause := by
  refine ⟨fun i s e => ?_, fun s k h => ⟨by omega, exists_lowest_address_above h⟩⟩
  cases i with
  | ret => simp [exec_eq_fault, executePhase, retEffect_eq_error]
  | call nnn => simp [exec_eq_fault, executePhase, callEffect_eq_error]
  | skp x => simp [exec_eq_fault, executePhase, skpEffect, withKey_ok_eq_error, State.reg_eq]
  | sknp x => simp [exec_eq_fault, executePhase, sknpEffect, withKey_ok_eq_error, State.reg_eq]
  | drw x y n => simp [exec_eq_fault, executePhase, drwEffect, withData_ok_eq_error]
  | ldBV x => simp [exec_eq_fault, executePhase, ldBVEffect, withData_ok_eq_error]
  | ldMV x => simp [exec_eq_fault, executePhase, ldMVEffect, withData_ok_eq_error]
  | ldVM x => simp [exec_eq_fault, executePhase, ldVMEffect, withData_ok_eq_error]
  | _ => exact iff_of_false (exec_ne_fault_of_completes trivial) (by simp)

/-! ### The errors of the commands (R256) -/

theorem loadRom_eq_err {b : List Byte} {s t : State} {e : Fault} :
    loadRom b s = .done t (.err e) ↔ b.length > 0xE00 ∧ t = s ∧ e = .romTooBig b.length := by
  unfold loadRom
  split <;> simp [*, eq_comm]

theorem stepCommand_eq_err {s t : State} {e : Fault} :
    stepCommand s = .done t (.err e) ↔ t = s ∧ stepResult s = .err e := by
  unfold stepCommand
  cases stepResult s <;> simp [eq_comm]

theorem frameCommand_eq_err {n : Nat} {s t : State} {e : Fault} :
    frameCommand n s = .done t (.err e) ↔ frame n s = .err e t := by
  unfold frameCommand
  cases frame n s <;> simp [and_comm]

theorem keyEvent_ne_err (down : Bool) (k : Nat) (s t : State) (e : Fault) : keyEvent down k s ≠ .done t (.err e) := by
  unfold keyEvent
  split <;> simp

theorem dbgGetCommand_eq_err {f : DbgField} {s t : State} {e : Fault} :
    dbgGetCommand f s = .done t (.err e) ↔ t = s ∧ dbgGet f s = .error e := by
  unfold dbgGetCommand
  cases dbgGet f s <;> simp [eq_comm]

theorem dbgSetCommand_eq_err {w : DbgWrite} {s t : State} {e : Fault} :
    dbgSetCommand w s = .done t (.err e) ↔ t = s ∧ dbgSet w s = .error e := by
  unfold dbgSetCommand
  cases dbgSet w s <;> simp [eq_comm]

/-- A command other than FRAME that returns an error leaves the state as it was (D12). -/
theorem eq_of_command_err {c : Command} {s t : State} {e : Fault} (hne : ∀ n, c ≠ .frame n)
    (h : command c s = .done t (.err e)) : t = s := by
  cases c with
  | reset => cases h
  | loadRom b => exact (loadRom_eq_err.mp h).2.1
  | step => exact (stepCommand_eq_err.mp h).1
  | frame n => exact absurd rfl (hne n)
  | keyDown k => exact absurd h (keyEvent_ne_err true k s t e)
  | keyUp k => exact absurd h (keyEvent_ne_err false k s t e)
  | dbgGet f => exact (dbgGetCommand_eq_err.mp h).1
  | dbgSet w => exact (dbgSetCommand_eq_err.mp h).1

/-- Settles O13: each command's error with its state, and for FRAME the run of its loop to the step in error. -/
theorem errorsLeaveTheStateUnchanged : Obligations.ErrorsLeaveTheStateUnchanged := by
  refine ⟨fun c s t e => eq_of_command_err, fun n s t e h => ?_⟩
  obtain ⟨ws, hrun, hlen, hdraw, herr⟩ := frameLoop_eq_err.mp (frameCommand_eq_err.mp h)
  exact ⟨ws, hrun, hlen, fun w hw => mt isDraw_iff.mpr (hdraw w hw), step_of_stepResult_err herr⟩

end Sys2Proof.Machine
end

section
/-! PROOF. The software limits of spec/70_reset_and_hazards.md R288: an instruction completes exactly under those it checks
itself, and a violation is an error, never a refusal (R250, R258). -/

namespace Sys2Proof.Machine

/-- An instruction completes exactly within its software limits (R288). -/
theorem exists_exec_eq_next {i : Instr} {s : State} : (∃ t, exec i s = .next t) ↔ Completes i s := by
  simp only [exec_eq_next, exists_and_left, exists_eq, and_true]

/-- An instruction is EXECUTE and ADVANCE (R103, R104), neither of which refuses. -/
theorem exec_ne_refused (i : Instr) (s : State) (r : Refusal) : exec i s ≠ .refused r := by
  rw [exec_eq_retire]
  exact retire_ne_refused _ r

/-- FETCH and DECODE stop only by an error (R101, R102), and what they pass on is an instruction. -/
theorem step_ne_refused (s : State) (r : Refusal) : step s ≠ .refused r := by
  cases hf : fetch s with
  | error e => simp [step_of_stepResult_err (stepResult_of_fetch_error hf)]
  | ok op =>
    cases hd : decodeWord ironchip op with
    | none => simp [step_of_stepResult_err (stepResult_of_decodeWord_none hf hd)]
    | some i =>
      rw [step, stepResult_of_decode hf hd, outcome_ofOutcome]
      exact exec_ne_refused i s r

/-- Settles O11: the limits are those of `Completes`, and neither `exec` nor `step` refuses. -/
theorem execCompletesExactlyWithinTheSoftwareLimits : Obligations.ExecCompletesExactlyWithinTheSoftwareLimits := by
  refine ⟨fun i s => exists_exec_eq_next.trans ?_, exec_ne_refused, step_ne_refused⟩
  cases i <;> exact Iff.rfl

end Sys2Proof.Machine
end

section
/-! PROOF. Jumps, calls, returns and the skips on registers of spec/41_flow.md (R141 to R144, R147 to R149). -/

namespace Sys2Proof.Machine

/-! ### Jumps (R142, R149) -/

/-- Settles O14: both words decode, and PC is the target, read as a number. -/
theorem jumpsSetTheProgramCounter : Obligations.JumpsSetTheProgramCounter := by
  intro s nnn
  refine ⟨Laws.RoundTrip.jp nnn rfl, Laws.RoundTrip.jpV0 nnn rfl, ?_, ?_, ?_⟩
  · rw [exec_of_completes (i := .jp nnn) trivial, ← addrOf_eq_ofNat]
    rfl
  · rw [exec_of_completes (i := .jpV0 nnn) trivial, ← State.reg_eq, ← indexedTarget_eq_ofNat]
    rfl
  · omega

/-! ### Call and return (R141, R143) -/

/-- A call below depth 15 pushes its own address and jumps (R143). -/
theorem stateAfter_call_of_lt {s : State} (nnn : BitVec 12) (h : s.SP.val + 1 < 16) :
    stateAfter (.call nnn) s =
      { s with SP := ⟨s.SP.val + 1, h⟩, S := s.S.set (s.SP.val + 1) s.PC h, PC := addrOf nnn } := by
  have hup : s.SP + 1 = ⟨s.SP.val + 1, h⟩ := Fin.ext (Fin.val_add_one_of_lt' h)
  simp only [stateAfter, writtenBy, hup]
  rfl

/-- Settles O15: the state after a call that completes, and the overflow at depth 15. -/
theorem callPushesItsAddressAndJumps : Obligations.CallPushesItsAddressAndJumps := by
  intro s nnn
  refine ⟨Laws.RoundTrip.call nnn rfl, fun h => ?_, exec_call_of_full nnn⟩
  have hc : Completes (.call nnn) s := show s.SP.val ≠ 15 by omega
  rw [exec_of_completes hc, stateAfter_call_of_lt nnn h, addrOf_eq_ofNat]

/-- Settles O16: `stateAfter` of a return is the popped address plus 2 and SP one lower; at SP = 0 the return's own error. -/
theorem returnGoesPastTheCallAndPops : Obligations.ReturnGoesPastTheCallAndPops :=
  fun _ => ⟨Laws.RoundTrip.ret rfl, fun h => exec_of_completes (i := .ret) h,
    fun h0 => exec_eq_fault.mpr (retEffect_eq_error.mpr ⟨h0, rfl⟩)⟩

/-! ### Skips on registers (R147, R148) -/

/-- SE of two registers leaves PC at the skip's target and nothing else changed (R147). -/
theorem exec_seVV (x y : Reg) (s : State) :
    exec (.seVV x y) s = .next (s.setPC (pcAfterSkip (s.reg x == s.reg y) s)) :=
  exec_of_completes (i := .seVV x y) trivial

/-- SNE of two registers is SE with the comparison negated (R148). -/
theorem exec_sneVV (x y : Reg) (s : State) :
    exec (.sneVV x y) s = .next (s.setPC (pcAfterSkip (s.reg x != s.reg y) s)) :=
  exec_of_completes (i := .sneVV x y) trivial

/-- Settles O20: the two words decode, and the skip's condition is the comparison. -/
theorem skipsOnRegisters : Obligations.SkipsOnRegisters := by
  intro s x y
  refine ⟨Laws.RoundTrip.seVV x y rfl, Laws.RoundTrip.sneVV x y rfl, ?_, ?_⟩
  · simp [exec_seVV, pcAfterSkip, State.setPC, State.reg_eq]
  · simp [exec_sneVV, pcAfterSkip, State.setPC, State.reg_eq]

end Sys2Proof.Machine
end

section
/-! PROOF. The random byte of spec/42_alu.md (R176). -/

namespace Sys2Proof.Machine

/-- Settles O27: the byte of the draw is the witness, any offered byte gives the same effect, and masking by 0 leaves 0. -/
theorem randomByteIsMaskedForEveryDraw : Obligations.RandomByteIsMaskedForEveryDraw := by
  intro s x kk
  refine ⟨Laws.RoundTrip.rnd x kk rfl, ⟨Config.rndByte s.rndTaken, exec_of_completes (i := .rnd x kk) trivial⟩,
    fun r => rfl, ?_⟩
  have hmask : Config.rndByte s.rndTaken &&& 0 = 0 := BitVec.and_zero
  rw [exec_of_completes (i := .rnd x 0) (s := s) trivial, stateAfter, writtenBy, hmask]
  rfl

end Sys2Proof.Machine
end

section
/-! PROOF. ADD I and LD F (R191, R192), the three decimal digits (R196), and the bulk store and load (R197, R198) of
spec/43_index_memory.md. -/

namespace Sys2Proof.Machine

/-! ### Writing I (R191, R192) -/

theorem add_setWidth_eq_ofNat (a : Word) (v : Byte) :
    a + v.setWidth 16 = BitVec.ofNat 16 ((a.toNat + v.toNat) % 65536) := by
  apply BitVec.eq_of_toNat_eq
  simp

/-- Settles O29: the sum and the glyph address as numbers; under other parameters LD F is the glyph address itself. -/
theorem indexAddAndGlyphAddress : Obligations.IndexAddAndGlyphAddress := by
  intro s x
  refine ⟨Laws.RoundTrip.addIV x rfl, Laws.RoundTrip.ldFV x rfl, ?_, exec_of_completes (i := .ldFV x) trivial,
    fun c => rfl⟩
  rw [exec_of_completes (i := .addIV x) trivial, ← add_setWidth_eq_ofNat]
  rfl

/-! ### The three decimal digits (R196) -/

/-- A run of writes inside the 4096 bytes leaves its `k`-th byte at its `k`-th address (R13). -/
theorem Memory.read_writeAll_add (m : Memory) {base k : Nat} {bs : List Byte} (h : base + bs.length ≤ 0x1000)
    (hk : k < bs.length) : (m.writeAll base bs).read (base + k) = bs[k] := by
  rw [Memory.read_writeAll bs m base h, dif_pos (by omega)]
  simp only [Nat.add_sub_cancel_left]

/-- Fx33 within memory leaves the digits in the three bytes from I up (R196). -/
theorem writtenBy_ldBV_read {x : Reg} {s : State} (hc : Completes (.ldBV x) s) {k : Nat}
    (hk : k < 3) : (writtenBy (.ldBV x) s).M.read (s.I.toNat + k) = (bcdDigits (s.reg x))[k]'hk := by
  have hfits : s.I.toNat + 2 ≤ 0xFFF := hc
  exact s.M.read_writeAll_add (show s.I.toNat + 3 ≤ 0x1000 by omega) hk

/-- Every digit fits a byte. -/
theorem bcdDigits_toNat (v : Byte) :
    (bcdDigits v).map BitVec.toNat = [v.toNat / 100, v.toNat / 10 % 10, v.toNat % 10] := by
  have hv := v.isLt
  simp [bcdDigits]
  omega

/-- Settles O30: the three digits at their addresses, and no other byte written. -/
theorem bcdStoresThreeDigits : Obligations.BcdStoresThreeDigits := by
  refine fun s x => ⟨Laws.RoundTrip.ldBV x rfl, fun hc => ⟨_, exec_of_completes (i := .ldBV x) hc, rfl, ?_⟩⟩
  have hdigits := bcdDigits_toNat (s.reg x)
  simp only [bcdDigits, List.map_cons, List.map_nil, List.cons.injEq, and_true] at hdigits
  obtain ⟨hhundreds, htens, hunits⟩ := hdigits
  refine ⟨?_, ?_, ?_, ?_⟩
  · exact (congrArg BitVec.toNat (writtenBy_ldBV_read (k := 0) hc (by omega))).trans hhundreds
  · exact (congrArg BitVec.toNat (writtenBy_ldBV_read (k := 1) hc (by omega))).trans htens
  · exact (congrArg BitVec.toNat (writtenBy_ldBV_read (k := 2) hc (by omega))).trans hunits
  · rintro a rfl b hb
    exact writtenBy_ldBV_read_outside x s hb

/-! ### The bulk store and the bulk load (R197, R198) -/

/-- Settles O31: the stored bytes, and no other byte written. -/
theorem bulkStoreWritesV0ToVx : Obligations.BulkStoreWritesV0ToVx := by
  refine fun s x => ⟨Laws.RoundTrip.ldMV x rfl, fun hc => ⟨_, exec_of_completes (i := .ldMV x) hc, rfl, ?_, ?_⟩⟩
  · exact fun i hi => writtenBy_ldMV_read hc hi
  · rintro a rfl b hb
    exact writtenBy_ldMV_read_outside x s hb

/-- A bulk load leaves the byte at I+r in every register up to x. -/
theorem stateAfter_ldVM_reg_of_le {x r : Reg} (s : State) (h : r ≤ x) :
    (stateAfter (.ldVM x) s).reg r = s.M.read (s.I.toNat + r.val) :=
  (writtenBy_ldVM_reg x s r).trans (if_pos h)

/-- A bulk load keeps the registers above x. -/
theorem stateAfter_ldVM_reg_of_gt {x r : Reg} (s : State) (h : x < r) : (stateAfter (.ldVM x) s).reg r = s.reg r :=
  (writtenBy_ldVM_reg x s r).trans (if_neg (not_le.mpr h))

/-- Settles O32: the loaded registers and the higher ones. -/
theorem bulkLoadReadsV0ToVx : Obligations.BulkLoadReadsV0ToVx := by
  refine fun s x => ⟨Laws.RoundTrip.ldVM x rfl, fun hc => ⟨_, exec_of_completes (i := .ldVM x) hc, rfl, ?_, ?_⟩⟩
  · exact fun i => stateAfter_ldVM_reg_of_le s
  · exact fun i => stateAfter_ldVM_reg_of_gt s

/-- Settles O33: store and load have the same limit and I is kept, so the load completes and finds the stored bytes. -/
theorem storeThenLoadRestoresTheRegisters : Obligations.StoreThenLoadRestoresTheRegisters := by
  intro s t x W h
  obtain ⟨hc, rfl⟩ := exec_eq_next.mp h
  have hload : Completes (.ldVM x) { stateAfter (.ldMV x) s with V := W } := hc
  refine ⟨_, exec_of_completes hload, fun i hi => ?_, fun i hi => stateAfter_ldVM_reg_of_gt _ hi, rfl⟩
  exact (stateAfter_ldVM_reg_of_le _ hi).trans (writtenBy_ldMV_read hc hi)

end Sys2Proof.Machine
end

section
/-! PROOF. The display of spec/44_display.md: 00E0 (R210) and the sprite draw Dxyn (R211, R212). -/

namespace Sys2Proof.Machine

@[simp] theorem stateAfter_FB (i : Instr) (s : State) : (stateAfter i s).FB = (writtenBy i s).FB := rfl

/-- Settles O35: the screen after is the all-dark one. -/
theorem clearScreenDarkensEveryPixel : Obligations.ClearScreenDarkensEveryPixel :=
  fun s => ⟨Laws.RoundTrip.cls rfl, stateAfter .cls s, exec_of_completes (i := .cls) trivial, Screen.clear_pixel, rfl⟩

/-! ### The pixels a draw covers (R211) -/

/-- Is the pixel in row `py`, column `px` under a set bit of the sprite that Dxyn draws in state `s`? -/
def drwCovers (x y : Reg) (n : Nat) (s : State) (py : Fin 32) (px : Fin 64) : Bool :=
  spriteCovers (originX (s.reg x)) (originY (s.reg y)) n (fun r => s.M.read (dataAddr s r)) py.val px.val

/-- The covered pixels in numbers: within the sprite's rows and its 8 columns, and under a set bit, bit 7 leftmost. -/
theorem drwCovers_iff {x y : Reg} {n : Nat} {s : State} {py : Fin 32} {px : Fin 64} :
    drwCovers x y n s py px = true ↔
      (s.reg y).toNat % 32 ≤ py.val ∧ py.val < (s.reg y).toNat % 32 + n ∧
      (s.reg x).toNat % 64 ≤ px.val ∧ px.val < (s.reg x).toNat % 64 + 8 ∧
      (s.M.read (s.I.toNat + (py.val - (s.reg y).toNat % 32))).getLsbD (7 - (px.val - (s.reg x).toNat % 64)) =
        true := by
  rw [drwCovers, spriteCovers, Bool.and_eq_true, decide_eq_true_iff]
  simp only [and_assoc]
  rfl

/-- What a draw covers depends on the sprite's bytes, I and the origin alone. -/
theorem drwCovers_congr {x y p q : Reg} {s t : State} (n : Nat) (hM : t.M = s.M) (hI : t.I = s.I)
    (hx : originX (t.reg p) = originX (s.reg x)) (hy : originY (t.reg q) = originY (s.reg y)) :
    drwCovers p q n t = drwCovers x y n s := by
  unfold drwCovers
  simp only [hM, hx, hy, dataAddr, hI]

/-! ### The state after a draw (R212) -/

/-- A draw XORs every pixel with the sprite's bit there. -/
theorem stateAfter_drw_pixel (x y : Reg) (n : Nat) (s : State) (py : Fin 32) (px : Fin 64) :
    (stateAfter (.drw x y n) s).FB.pixel py px = Bool.xor (s.FB.pixel py px) (drwCovers x y n s py px) :=
  (drawSprite_spec _ _ _ _ s.FB).1 py px

/-- A draw in state `s` erases a lit pixel. -/
def DrwCollides (x y : Reg) (n : Nat) (s : State) : Prop :=
  ∃ py px, drwCovers x y n s py px = true ∧ s.FB.pixel py px = true

/-- A draw that erases a lit pixel writes 1 to VF and to no other register. -/
theorem stateAfter_drw_V_of_collides {x y : Reg} {n : Nat} {s : State} (h : DrwCollides x y n s) :
    (stateAfter (.drw x y n) s).V = s.V.set 15 1 := by
  have hc := (drawSprite_spec _ _ _ _ s.FB).2.mpr h
  exact congrArg (fun b => s.V.set 15 (flagByte b)) hc

/-- A draw that erases no lit pixel writes 0 to VF and to no other register. -/
theorem stateAfter_drw_V_of_not_collides {x y : Reg} {n : Nat} {s : State} (h : ¬ DrwCollides x y n s) :
    (stateAfter (.drw x y n) s).V = s.V.set 15 0 := by
  have hc := Bool.eq_false_iff.mpr (mt (drawSprite_spec _ _ _ _ s.FB).2.mp h)
  exact congrArg (fun b => s.V.set 15 (flagByte b)) hc

/-- Settles O36: the given cover is the draw's own, so each pixel and VF follow from the state after. -/
theorem drawIsClippedXorWithCollision : Obligations.DrawIsClippedXorWithCollision := by
  refine fun s x y n => ⟨fun hn => Laws.RoundTrip.drw x y n (decide_eq_true (Nat.le_of_lt_succ hn)),
    fun hc covered hcovered => ?_⟩
  have hiff (py px) : covered py px ↔ drwCovers x y n s py px = true := (hcovered py px).trans drwCovers_iff.symm
  refine ⟨_, exec_of_completes (i := .drw x y n) hc, fun py px h => ?_, fun py px h => ?_, ?_, fun h => ?_, rfl⟩
  · refine (stateAfter_drw_pixel x y n s py px).trans ?_
    rw [(hiff py px).mp h, Bool.xor_true]
    rfl
  · refine (stateAfter_drw_pixel x y n s py px).trans ?_
    rw [Bool.eq_false_iff.mpr (mt (hiff py px).mpr h), Bool.xor_false]
    rfl
  · rintro ⟨py, px, h, hlit⟩
    exact stateAfter_drw_V_of_collides ⟨py, px, (hiff py px).mp h, hlit⟩
  · refine stateAfter_drw_V_of_not_collides ?_
    rintro ⟨py, px, hcov, hlit⟩
    have hdark : s.FB.pixel py px = false := h py px ((hiff py px).mpr hcov)
    exact absurd hlit (by rw [hdark]; decide)

/-! ### Drawing twice (R212) -/

/-- A second draw that covers the same pixels restores the screen. -/
theorem stateAfter_drw_drw_FB {x y p q : Reg} {n : Nat} {s : State}
    (h : drwCovers p q n (stateAfter (.drw x y n) s) = drwCovers x y n s) :
    (stateAfter (.drw p q n) (stateAfter (.drw x y n) s)).FB = s.FB := by
  refine Screen.ext_pixel fun py px => ?_
  rw [stateAfter_drw_pixel, h, stateAfter_drw_pixel, Bool.xor_assoc, Bool.xor_self, Bool.xor_false]

/-- On a dark screen a draw erases nothing. -/
theorem not_drwCollides_of_dark {x y : Reg} {n : Nat} {s : State} (h : ∀ py px, s.FB.pixel py px = false) :
    ¬ DrwCollides x y n s := by
  rintro ⟨py, px, -, hlit⟩
  exact absurd hlit (by rw [h]; decide)

/-- After a draw on a dark screen the lit pixels are the covered ones. -/
theorem stateAfter_drw_pixel_of_dark {x y : Reg} {n : Nat} {s : State} (h : ∀ py px, s.FB.pixel py px = false)
    (py : Fin 32) (px : Fin 64) : (stateAfter (.drw x y n) s).FB.pixel py px = drwCovers x y n s py px := by
  rw [stateAfter_drw_pixel, h, Bool.false_xor]

theorem reg_vf_of_V_set {s t : State} {v : Byte} (h : t.V = s.V.set 15 v) : t.V[(15 : Fin 16)] = v := by
  simp [h]

/-- Settles O37: the second draw covers what the first did, so it restores the screen, and from a dark screen it erases
exactly the pixels the first lit. -/
theorem drawingTwiceRestoresTheScreen : Obligations.DrawingTwiceRestoresTheScreen := by
  intro s t x y p q n h hx hy
  obtain ⟨hc, rfl⟩ := exec_eq_next.mp h
  have hcov : drwCovers p q n (stateAfter (.drw x y n) s) = drwCovers x y n s := drwCovers_congr n rfl rfl hx hy
  have hc2 : Completes (.drw p q n) (stateAfter (.drw x y n) s) := hc
  refine ⟨_, exec_of_completes hc2, stateAfter_drw_drw_FB hcov, fun hdark => ⟨?_, ?_, fun hnone => ?_⟩⟩
  · exact reg_vf_of_V_set (stateAfter_drw_V_of_not_collides (not_drwCollides_of_dark hdark))
  · rintro ⟨py, px, hlit⟩
    refine reg_vf_of_V_set (stateAfter_drw_V_of_collides ⟨py, px, ?_, hlit⟩)
    rw [hcov]
    exact (stateAfter_drw_pixel_of_dark hdark py px).symm.trans hlit
  · exact reg_vf_of_V_set (stateAfter_drw_V_of_not_collides (not_drwCollides_of_dark hnone))

end Sys2Proof.Machine
end

section
/-! PROOF. The key skips of spec/45_keypad_timers.md (R230, R231). -/

namespace Sys2Proof.Machine

/-- The key a register's value names (R230). -/
theorem ofNat_toNat_eq_of_eq {v : Byte} {k : Fin 16} (h : v.toNat = k.val) : Fin.ofNat 16 v.toNat = k :=
  Fin.ext ((Nat.mod_eq_of_lt (by omega)).trans h)

theorem exec_skp_of_key {s : State} {x : Reg} {k : Fin 16} (h : (s.reg x).toNat = k.val) :
    exec (.skp x) s = .next (s.setPC (pcAfterSkip (s.key k) s)) := by
  have hc : Completes (.skp x) s := show (s.reg x).toNat ≤ 15 by omega
  rw [exec_of_completes hc, stateAfter, pcAfter, ofNat_toNat_eq_of_eq h, writtenBy]

theorem exec_sknp_of_key {s : State} {x : Reg} {k : Fin 16} (h : (s.reg x).toNat = k.val) :
    exec (.sknp x) s = .next (s.setPC (pcAfterSkip (!s.key k) s)) := by
  have hc : Completes (.sknp x) s := show (s.reg x).toNat ≤ 15 by omega
  rw [exec_of_completes hc, stateAfter, pcAfter, ofNat_toNat_eq_of_eq h, writtenBy]

theorem pcAfterSkip_not (cond : Bool) (s : State) :
    pcAfterSkip (!cond) s = if cond = true then s.PC + 2 else s.PC + 4 := by
  cases cond <;> rfl

/-- Settles O21: the skip's condition is the key's level, and above 15 the value names no key. -/
theorem skipsOnKey : Obligations.SkipsOnKey := by
  refine fun s x => ⟨Laws.RoundTrip.skp x rfl, Laws.RoundTrip.sknp x rfl, fun k hk => ⟨?_, ?_⟩, fun hgt => ⟨?_, ?_⟩⟩
  · exact exec_skp_of_key hk
  · rw [exec_sknp_of_key hk, pcAfterSkip_not]
    rfl
  · exact exec_eq_fault.mpr (withKey_ok_eq_error (f := fun k => skipIf (s.key k) s).mpr ⟨hgt, rfl⟩)
  · exact exec_eq_fault.mpr (withKey_ok_eq_error (f := fun k => skipIf (!s.key k) s).mpr ⟨hgt, rfl⟩)

end Sys2Proof.Machine
end

section
/-! PROOF. The host's commands of spec/40_core_cycle.md: LOAD_ROM (R128), RESET (R129), the key events (R130), the debug port
(R133, R134), and the error codes of spec/60_exceptions.md R250 by command. -/

namespace Sys2Proof.Machine

/-! ### LOAD_ROM, RESET and the key events (R128 to R130) -/

theorem command_loadRom_of_le {b : List Byte} (s : State) (h : b.length ≤ 0xE00) :
    command (.loadRom b) s = .done (s.setM (s.M.writeAll 0x200 b)) .ok :=
  if_neg (not_lt.mpr h)

/-- Settles O52: the bytes of the ROM at their addresses and no other byte written, or the error. -/
theorem loadRomCopiesAndKeepsTheRest : Obligations.LoadRomCopiesAndKeepsTheRest := by
  refine fun s b => ⟨fun h => ⟨_, command_loadRom_of_le s h, rfl, fun i hi => ?_, fun a ha => ?_⟩,
    fun h => loadRom_eq_err.mpr ⟨h, rfl, rfl⟩⟩
  · exact s.M.read_writeAll_add (by omega) hi
  · exact Memory.read_writeAll_outside b s.M 0x200 a ha

theorem keyEvent_of_lt (down : Bool) {k : Nat} (s : State) (h : k < 16) :
    keyEvent down k s = .done (s.setKey ⟨k, h⟩ down) .nothing :=
  dif_pos h

theorem keyEvent_of_gt (down : Bool) {k : Nat} (s : State) (h : k > 15) :
    keyEvent down k s = .refused (.keyOutsideContract k) :=
  dif_neg (Nat.not_lt.mpr h)

/-- Settles O53: both events are one write of the keypad latch, or the refusal. -/
theorem keyEventsSetOneKey : Obligations.KeyEventsSetOneKey :=
  fun s _ => ⟨fun h => ⟨keyEvent_of_lt true s h, keyEvent_of_lt false s h⟩,
    fun h => ⟨keyEvent_of_gt true s h, keyEvent_of_gt false s h⟩⟩

/-- Reset memory lists nothing (R39). -/
theorem read_reset (a : Nat) : State.reset.M.read a = resetByte ironchip a := rfl

/-- Settles O57: the fields of the reset state, its memory as the reset byte of each address, and the command. -/
theorem resetState : Obligations.ResetState := by
  refine ⟨rfl, fun i h => ?_, fun a h => ?_, fun r => ?_, rfl, rfl, rfl, rfl, Screen.clear_pixel, fun s => ⟨rfl, rfl⟩⟩
  · exact (read_reset _).trans (resetByte_font ironchip h)
  · exact (read_reset a).trans (resetByte_outside h)
  · simp [State.reset]

/-! ### A debug set reads back (R133, R134) -/

/-- A debug set that succeeds makes its field read as the value written. -/
theorem dbgGet_field_of_dbgSet {w : DbgWrite} {s t : State} (h : dbgSet w s = .ok t) :
    dbgGet w.field t = .ok w.value := by
  cases w <;> simp only [dbgSet] at h
  case mem a v =>
    split at h <;> cases h
    have ha : a ≤ 0xFFF := by omega
    simp [dbgGet, DbgWrite.field, DbgWrite.value, Memory.read_write_self, ha]
  case reg | pixel | sp | key =>
    split at h <;> cases h
    simp [dbgGet, DbgWrite.field, DbgWrite.value, *]
  case slot j v =>
    split at h
    · split at h <;> cases h
      simp [dbgGet, DbgWrite.field, DbgWrite.value, *]
    · cases h
  case index | pc =>
    split at h <;> cases h
    rfl
  case delay | sound =>
    cases h
    rfl

/-! ### A write is seen by no other field of the debug port (R134) -/

theorem dbgGet_write_M {f : DbgField} {a : Nat} (s : State) (v : Byte) (h : f ≠ .mem a) :
    dbgGet f (s.setM (s.M.write a v)) = dbgGet f s := by
  cases f with
  | mem b =>
    have hb : b ≠ a := fun hb => h (congrArg _ hb)
    simp [dbgGet, Memory.read_write_ne, hb]
  | _ => rfl

theorem dbgGet_setReg {f : DbgField} {r : Reg} (s : State) (v : Byte) (h : f ≠ .reg r.val) :
    dbgGet f (s.setReg r v) = dbgGet f s := by
  cases f with
  | reg q =>
    have hq : q ≠ r.val := fun hq => h (congrArg _ hq)
    simp [dbgGet, Fin.ext_iff, hq]
  | _ => rfl

theorem dbgGet_setPixel {f : DbgField} {y : Fin 32} {x : Fin 64} (s : State) (b : Bool) (h : f ≠ .pixel x.val y.val) :
    dbgGet f (s.setFB (s.FB.setPixel y x b)) = dbgGet f s := by
  cases f with
  | pixel p q =>
    have hpq : ¬ (q = y.val ∧ p = x.val) := by
      rintro ⟨rfl, rfl⟩
      exact h rfl
    simp [dbgGet, Fin.ext_iff, hpq]
  | _ => rfl

theorem dbgGet_setSlot {f : DbgField} {j : Fin 16} (s : State) (v : Word) (h : f ≠ .slot j.val) :
    dbgGet f (s.setSlot j v) = dbgGet f s := by
  cases f with
  | slot q =>
    have hq : q ≠ j.val := fun hq => h (congrArg _ hq)
    simp [dbgGet, Fin.ext_iff, hq]
  | _ => rfl

theorem dbgGet_setKey {f : DbgField} {k : Reg} (s : State) (b : Bool) (h : f ≠ .key k.val) :
    dbgGet f (s.setKey k b) = dbgGet f s := by
  cases f with
  | key q =>
    have hq : q ≠ k.val := fun hq => h (congrArg _ hq)
    simp [dbgGet, Fin.ext_iff, hq]
  | _ => rfl

theorem dbgGet_setI {f : DbgField} (s : State) (v : Word) (h : f ≠ .index) : dbgGet f (s.setI v) = dbgGet f s := by
  cases f with
  | index => exact absurd rfl h
  | _ => rfl

theorem dbgGet_setPC {f : DbgField} (s : State) (v : Word) (h : f ≠ .pc) : dbgGet f (s.setPC v) = dbgGet f s := by
  cases f with
  | pc => exact absurd rfl h
  | _ => rfl

theorem dbgGet_setSP {f : DbgField} (s : State) (v : Fin 16) (h : f ≠ .sp) : dbgGet f (s.setSP v) = dbgGet f s := by
  cases f with
  | sp => exact absurd rfl h
  | _ => rfl

theorem dbgGet_setDT {f : DbgField} (s : State) (v : Byte) (h : f ≠ .delay) : dbgGet f (s.setDT v) = dbgGet f s := by
  cases f with
  | delay => exact absurd rfl h
  | _ => rfl

theorem dbgGet_setST {f : DbgField} (s : State) (v : Byte) (h : f ≠ .sound) : dbgGet f (s.setST v) = dbgGet f s := by
  cases f with
  | sound => exact absurd rfl h
  | _ => rfl

/-- A debug set that succeeds leaves every other field as it reads. -/
theorem dbgGet_of_dbgSet_of_ne {w : DbgWrite} {s t : State} (h : dbgSet w s = .ok t) {f : DbgField} (hf : f ≠ w.field) :
    dbgGet f t = dbgGet f s := by
  cases w <;> simp only [dbgSet] at h
  case mem a v =>
    split at h <;> cases h
    exact dbgGet_write_M s v hf
  case reg r v =>
    split at h <;> cases h
    exact dbgGet_setReg s v hf
  case pixel x y b =>
    split at h <;> cases h
    exact dbgGet_setPixel s b hf
  case slot j v =>
    split at h
    · split at h <;> cases h
      exact dbgGet_setSlot s v hf
    · cases h
  case key k b =>
    split at h <;> cases h
    exact dbgGet_setKey s b hf
  case index v =>
    split at h <;> cases h
    exact dbgGet_setI s v hf
  case pc v =>
    split at h <;> cases h
    exact dbgGet_setPC s v hf
  case sp v =>
    split at h <;> cases h
    exact dbgGet_setSP s _ hf
  case delay v =>
    cases h
    exact dbgGet_setDT s v hf
  case sound v =>
    cases h
    exact dbgGet_setST s v hf

/-- Settles O54: the field written, and every other. -/
theorem debugSetWritesExactlyItsField : Obligations.DebugSetWritesExactlyItsField :=
  fun _ _ _ h => ⟨dbgGet_field_of_dbgSet h, fun _ hf => dbgGet_of_dbgSet_of_ne h hf⟩

/-! ### The errors of the debug port (R133) -/

/-- Settles O55: each bound is the condition `dbgGet` and `dbgSet` test. -/
theorem debugErrorsFollowTheFieldTable : Obligations.DebugErrorsFollowTheFieldTable := by
  refine fun s a v w b x y => ⟨fun h => ?_, fun h => ?_, fun h => ?_, fun h => ?_⟩
  · exact ⟨if_pos h, if_pos h⟩
  · have hge : ¬ a < 16 := by omega
    exact ⟨dif_neg hge, dif_neg hge, dif_neg hge, dif_neg hge, dif_neg hge, dif_neg hge, dif_neg hge⟩
  · have hout : ¬ (x < 64 ∧ y < 32) := by omega
    exact ⟨dif_neg hout, dif_neg hout⟩
  · exact ⟨if_pos h, if_pos h, fun ha => (dif_pos (Nat.lt_succ_of_le ha)).trans (if_pos h)⟩

/-! ### Which command returns which error (R250) -/

/-- An instruction's errors have code 3, 4 or 5: SP, a data address, a key. -/
theorem code_of_exec_eq_fault {i : Instr} {s : State} {e : Fault} (h : exec i s = .fault e) : e.code ∈ [3, 4, 5] := by
  obtain ⟨-, -, rfl⟩ | ⟨-, -, -, rfl⟩ | ⟨-, -, -, rfl⟩ | ⟨-, rfl⟩ := (instructionErrorsHaveTheirOneCause.1 i s e).mp h <;>
    simp [Fault.code]

/-- A step's errors have code 1 to 5: FETCH's, DECODE's and the instruction's. -/
theorem code_of_stepResult_err {s : State} {e : Fault} (h : stepResult s = .err e) : e.code ∈ [1, 2, 3, 4, 5] := by
  obtain hf | ⟨op, -, hd | ⟨i, -, hx⟩⟩ := stepResult_eq_err.mp h
  · unfold fetch at hf
    split at hf <;> cases hf
    simp [Fault.code]
  · unfold decodePhase at hd
    split at hd <;> cases hd
    simp [Fault.code]
  · exact List.mem_cons_of_mem _ (List.mem_cons_of_mem _ (code_of_exec_eq_fault (exec_eq_fault.mpr hx)))

theorem code_of_dbgGet_error {f : DbgField} {s : State} {e : Fault} (h : dbgGet f s = .error e) :
    e.code ∈ [1, 3, 5, 7, 8, 9, 10, 11] := by
  cases f <;> simp only [dbgGet] at h
  case mem | reg | pixel | slot | key =>
    split at h <;> cases h
    simp [Fault.code]
  case index | delay | sound | pc | sp => cases h

theorem code_of_dbgSet_error {w : DbgWrite} {s : State} {e : Fault} (h : dbgSet w s = .error e) :
    e.code ∈ [1, 3, 5, 7, 8, 9, 10, 11] := by
  cases w <;> simp only [dbgSet, raise] at h
  case mem | reg | pixel | index | pc | sp | key =>
    split at h <;> cases h
    simp [Fault.code]
  case slot j v =>
    split at h
    · split at h <;> cases h
      simp [Fault.code]
    · cases h
      simp [Fault.code]
  case delay | sound => cases h

/-- Settles O56, command by command. -/
theorem errorCodesByCommand : Obligations.ErrorCodesByCommand := by
  intro c s t e h
  cases c with
  | reset => cases h
  | loadRom b =>
    obtain ⟨-, -, rfl⟩ := loadRom_eq_err.mp h
    rfl
  | step => exact code_of_stepResult_err (stepCommand_eq_err.mp h).2
  | frame n =>
    obtain ⟨-, -, -, -, herr⟩ := frameLoop_eq_err.mp (frameCommand_eq_err.mp h)
    exact code_of_stepResult_err herr
  | keyDown k => exact keyEvent_ne_err true k s t e h
  | keyUp k => exact keyEvent_ne_err false k s t e h
  | dbgGet f => exact code_of_dbgGet_error (dbgGetCommand_eq_err.mp h).2
  | dbgSet w => exact code_of_dbgSet_error (dbgSetCommand_eq_err.mp h).2

end Sys2Proof.Machine
end
